-- ==== Sys2Proof/Machine/SortedMap.lean ====
section
/-! DEFINITION. Finite maps and sets over addresses as lists in one canonical form, keys strictly rising, so that
equal maps are equal data. RAM, the `written` set and the breakpoint table are held so. -/

namespace Sys2Proof.Machine

/-- The value at `k`, if it is listed. -/
def SortedMap.get {α : Type} (k : Nat) : List (Nat × α) → Option α
  | [] => none
  | (j, v) :: rest => if j = k then some v else SortedMap.get k rest

/-- The map with `v` at `k`. -/
def SortedMap.put {α : Type} (k : Nat) (v : α) : List (Nat × α) → List (Nat × α)
  | [] => [(k, v)]
  | (j, u) :: rest =>
    if k < j then (k, v) :: (j, u) :: rest
    else if j = k then (k, v) :: rest
    else (j, u) :: SortedMap.put k v rest

/-- The map with nothing at `k`. -/
def SortedMap.erase {α : Type} (k : Nat) : List (Nat × α) → List (Nat × α)
  | [] => []
  | (j, u) :: rest => if j = k then SortedMap.erase k rest else (j, u) :: SortedMap.erase k rest

/-- The set with `k` in it. -/
def SortedSet.insert (k : Nat) : List Nat → List Nat
  | [] => [k]
  | j :: rest =>
    if k < j then k :: j :: rest
    else if j = k then j :: rest
    else j :: SortedSet.insert k rest

/-- The canonical form of a set: strictly rising. -/
abbrev SortedSet.wf (keys : List Nat) : Prop := keys.Pairwise (· < ·)

/-- The canonical form of a map: keys strictly rising. -/
abbrev SortedMap.wf {α : Type} (m : List (Nat × α)) : Prop := SortedSet.wf (m.map Prod.fst)

end Sys2Proof.Machine
end

