-- ==== Sys2Proof/Word.lean ====
section
/-! DEFINITION. The machine's words and register indices (spec/00_scope.md R6 to R8; spec/10_state.md R20). -/

namespace Sys2Proof

/-- The 32-bit unsigned unit of encoding and of storage (R6, R8). -/
abbrev Word := BitVec 32

/-- A byte of a program file or of a RAM file; nothing inside the core is a byte (R66). -/
abbrev Byte := BitVec 8

/-- A 5-bit register field; every value of it names a register (R20, R105). -/
abbrev RegIdx := BitVec 5

/-- The number of words a 32-bit address reaches (R60). -/
abbrev addressSpace : Nat := 2 ^ 32

end Sys2Proof
end

