-- ==== Sys2Proof/Config.lean ====
section
/-! DEFINITION. What is fixed for a machine, and the values the spec leaves open.

The numeric opcode and ALU-function maps are parameters (spec/00_scope.md R6), with the reference assignment of
spec/30_encoding.md R111 and R112. A free value is an `opaque` constant: it has no body, so nothing can be proved of
the value it takes. -/

namespace Sys2Proof

/-- The twelve opcodes (R111). -/
inductive Opcode where
  | alu | lsl | asr | lsr | load | loadi | store | jmp | jmpi | jmpc | jmpic | brk
  deriving DecidableEq, Repr

/-- The eight ALU functions (R112). -/
inductive AluFunc where
  | and | or | nor | xor | add | sub | mul | div
  deriving DecidableEq, Repr

/-- The parameters `OPC` and `ALUF` of R6: the 4-bit value of each opcode, the 5-bit value of each ALU function. -/
structure OpcodeMap where
  opc : Opcode → BitVec 4
  aluf : AluFunc → BitVec 5

/-- The reference assignment: the tables of R111 and R112 (log entry 1). -/
def OpcodeMap.reference : OpcodeMap where
  opc
    | .alu => 0x0 | .lsl => 0x1 | .asr => 0x2 | .lsr => 0x3
    | .load => 0x4 | .loadi => 0x5 | .store => 0x6
    | .jmp => 0x7 | .jmpi => 0x8 | .jmpc => 0x9 | .jmpic => 0xA
    | .brk => 0xB
  aluf
    | .and => 0 | .or => 1 | .nor => 2 | .xor => 3
    | .add => 4 | .sub => 5 | .mul => 6 | .div => 7

/-- The days of the week, for `RTC_WDAY_ENC`. -/
inductive Weekday where
  | monday | tuesday | wednesday | thursday | friday | saturday | sunday
  deriving DecidableEq, Repr

/-- The parameters `RTC_MONTH_BASE` and `RTC_WDAY_ENC` of R6: whether the month counts from 0 or from 1, and the number
of each weekday (R79, D16). -/
structure RtcEncoding where
  monthBase : Fin 2
  weekday : Weekday → Word

/-- What a write listener calls (R71): the reference table has one callback. -/
inductive Callback where
  /-- The real-time clock capture (R77). -/
  | rtcCapture
  deriving DecidableEq, Repr

/-- One entry of `LISTENERS`: an address range, both ends included, and a callback (R71). -/
structure Listener where
  lo : Word
  hi : Word
  callback : Callback
  deriving DecidableEq, Repr

namespace Config

/-- `TICK_ADDR` (R6). -/
abbrev tickAddr : Word := 1024

/-- `RTC_TRIGGER_ADDR` (R6). -/
abbrev rtcTriggerAddr : Word := 1025

/-- `LISTENERS`: the reference table, one listener on {1025} (R71, D17; log entry 15). -/
def listeners : List Listener := [⟨rtcTriggerAddr, rtcTriggerAddr, .rtcCapture⟩]

/-- What a RAM word that nothing has written reads as (R60). -/
abbrev unlistedWord : Word := 0

/-- FREE VALUE: the word register `i` holds in the backing array at reset (R26, D9; log entry 2). -/
opaque resetReg : Nat → Word

/-- FREE VALUE: flags Z, N, C, O (indices 0 to 3) at reset (R31, D10; log entry 3). -/
opaque resetFlag : Nat → Bool

/-- FREE VALUE: whether a second has elapsed at the `n`-th clock test (R75, D18; log entry 4). -/
opaque tickDue : Nat → Bool

/-- FREE VALUE: the seconds field of the `n`-th clock snapshot, 0 to 59 (R77, R79; log entry 5). -/
opaque rtcSec : Nat → Fin 60

/-- FREE VALUE: word `k` of the `n`-th clock snapshot, for the words at 1027 to 1033 (`k` from 1 to 7), any 32-bit
value (R79, R80; log entry 5). -/
opaque rtcField : Nat → Nat → Word

/-- FREE VALUE: flag `k` of Z, N, C, O (0 to 3) after an ALU fault in the step with `n` clock tests behind it, from the
value the flag had before: it "may be cleared or unchanged", and no more is said (R200, D23; log entry 7). -/
opaque faultFlag (n k : Nat) (before : Bool) : Bool

end Config

end Sys2Proof
end

