-- ==== Sys2Proof/Syntax.lean ====
section
/-! DEFINITION. The instructions: one constructor for each row of spec/opcode_table.json (spec/30_encoding.md R104,
R111, R112). The eight rows of opcode ALU are eight constructors, since the table has a row for each function. -/

namespace Sys2Proof

/-- An instruction term. Register fields, the immediate and the select field are bit strings cut from the word (R10);
an offset is the signed word count it stands for (R109, R181; log entry 18). -/
inductive Instr where
  /-- `AND rd, rs1, rs2` (R143). -/
  | and (rd rs1 rs2 : RegIdx)
  /-- `OR rd, rs1, rs2` (R144). -/
  | or (rd rs1 rs2 : RegIdx)
  /-- `NOR rd, rs1, rs2` (R145). -/
  | nor (rd rs1 rs2 : RegIdx)
  /-- `XOR rd, rs1, rs2` (R146). -/
  | xor (rd rs1 rs2 : RegIdx)
  /-- `ADD rd, rs1, rs2` (R147). -/
  | add (rd rs1 rs2 : RegIdx)
  /-- `SUB rd, rs1, rs2` (R148). -/
  | sub (rd rs1 rs2 : RegIdx)
  /-- `MUL rd, rs1, rs2` (R149). -/
  | mul (rd rs1 rs2 : RegIdx)
  /-- `DIV rd, rs1, rs2` (R150). -/
  | div (rd rs1 rs2 : RegIdx)
  /-- `LSL rd, rs1, rs2` (R161). -/
  | lsl (rd rs1 rs2 : RegIdx)
  /-- `ASR rd, rs1, rs2` (R162). -/
  | asr (rd rs1 rs2 : RegIdx)
  /-- `LSR rd, rs1, rs2` (R163). -/
  | lsr (rd rs1 rs2 : RegIdx)
  /-- `LOAD rd, rs` (R170). -/
  | load (rd rs : RegIdx)
  /-- `LOADI rd, rs, imm, low|high`; `lhw` true is low (R171, R107). -/
  | loadi (rd rs : RegIdx) (imm : BitVec 16) (lhw : Bool)
  /-- `STORE rd, rs`: `rd` names the address register, `rs` the data register (R172). -/
  | store (rd rs : RegIdx)
  /-- `JMP rs` (R180). -/
  | jmp (rs : RegIdx)
  /-- `JMPI offset` (R181). -/
  | jmpi (offset : Int)
  /-- `JMPC rs, select` (R182). -/
  | jmpc (rs : RegIdx) (select : BitVec 4)
  /-- `JMPIC offset, select` (R183). -/
  | jmpic (offset : Int) (select : BitVec 4)
  /-- `BREAK`, the breakpoint sentinel (R190). -/
  | brk
  deriving DecidableEq, Repr

end Sys2Proof
end

