-- ==== Sys2Proof/WellFormed.lean ====
section
/-! DEFINITION. Which instruction terms an encoding exists for, and which opcode maps are assignments. -/

namespace Sys2Proof

/-- The range of a 24-bit offset, -2^23 to 2^23-1 words (R109). -/
abbrev offsetInRange (offset : Int) : Prop := -2 ^ 23 ≤ offset ∧ offset ≤ 2 ^ 23 - 1

/-- An instruction the encoding can hold. Register, immediate and select fields hold every value of their width
(R105, R107, R108), so only an offset can be out of range (R109). -/
abbrev Instr.WellFormed : Instr → Prop
  | .and _ _ _ => True
  | .or _ _ _ => True
  | .nor _ _ _ => True
  | .xor _ _ _ => True
  | .add _ _ _ => True
  | .sub _ _ _ => True
  | .mul _ _ _ => True
  | .div _ _ _ => True
  | .lsl _ _ _ => True
  | .asr _ _ _ => True
  | .lsr _ _ _ => True
  | .load _ _ => True
  | .loadi _ _ _ _ => True
  | .store _ _ => True
  | .jmp _ => True
  | .jmpi offset => offsetInRange offset
  | .jmpc _ _ => True
  | .jmpic offset _ => offsetInRange offset
  | .brk => True

/-- An assignment gives different opcodes different values, and different ALU functions different values (R110 reads
the opcode, and R140 the function, from the value alone). -/
structure OpcodeMap.WellFormed (e : OpcodeMap) : Prop where
  opc : ∀ a b, e.opc a = e.opc b → a = b
  aluf : ∀ a b, e.aluf a = e.aluf b → a = b

end Sys2Proof
end

