-- ==== Sys2Proof/Decode.lean ====
section
/-! DEFINITION. The decoder (spec/30_encoding.md R100 to R116), then the encoder (R118).

The decoder draws its fields with the bit cursor of R102, in the draw order of R104; both take the maps `OPC` and
`ALUF` as an argument (R6). -/

namespace Sys2Proof

/-- Why a word is no instruction. -/
inductive DecodeError where
  /-- Bits 3:0 name no opcode (R113). -/
  | unknownOpcode (op : BitVec 4)
  /-- The opcode is ALU and bits 23:19 name no function (R114). -/
  | unknownAluFunc (f : BitVec 5)
  deriving DecidableEq, Repr

/-- One draw of the bit cursor: `n` bits at offset `k`, and the offset moved on (R102). -/
def drawBits (w : Word) (k n : Nat) : BitVec n × Nat :=
  (w.extractLsb' k n, k + n)

/-- The first draw of every instruction: the opcode, bits 3:0 (R101). -/
def opcodeField (w : Word) : BitVec 4 := (drawBits w 0 4).1

/-- Draws `rd(5), rs1(5), rs2(5)` after the opcode; the offset behind them is returned with them (formats FA, FS). -/
def drawThreeRegs (w : Word) : (RegIdx × RegIdx × RegIdx) × Nat :=
  let rd := drawBits w 4 5
  let rs1 := drawBits w rd.2 5
  let rs2 := drawBits w rs1.2 5
  ((rd.1, rs1.1, rs2.1), rs2.2)

/-- Draws `rd(5), rs(5)` after the opcode (formats FM, FL). -/
def drawTwoRegs (w : Word) : (RegIdx × RegIdx) × Nat :=
  let rd := drawBits w 4 5
  let rs := drawBits w rd.2 5
  ((rd.1, rs.1), rs.2)

/-- The sign extension of a 24-bit offset field, as the word count it stands for (R109). -/
def offsetOfField (f : BitVec 24) : Int := f.toInt

/-- Draws `offset(24, signed)` after the opcode (formats FJI, FJIC). -/
def drawOffset (w : Word) : Int × Nat :=
  let f := drawBits w 4 24
  (offsetOfField f.1, f.2)

/-- Format FS: `rd(5), rs1(5), rs2(5)`. -/
def decodeShift (make : RegIdx → RegIdx → RegIdx → Instr) (w : Word) : Instr :=
  make (drawThreeRegs w).1.1 (drawThreeRegs w).1.2.1 (drawThreeRegs w).1.2.2

/-- Format FA: `rd(5), rs1(5), rs2(5), alufunc(5)`; an unassigned `alufunc` is refused by name (R114). -/
def decodeAlu (e : OpcodeMap) (w : Word) : Except DecodeError Instr :=
  let regs := drawThreeRegs w
  let rd := regs.1.1
  let rs1 := regs.1.2.1
  let rs2 := regs.1.2.2
  let f := (drawBits w regs.2 5).1
  if f = e.aluf .and then .ok (.and rd rs1 rs2)
  else if f = e.aluf .or then .ok (.or rd rs1 rs2)
  else if f = e.aluf .nor then .ok (.nor rd rs1 rs2)
  else if f = e.aluf .xor then .ok (.xor rd rs1 rs2)
  else if f = e.aluf .add then .ok (.add rd rs1 rs2)
  else if f = e.aluf .sub then .ok (.sub rd rs1 rs2)
  else if f = e.aluf .mul then .ok (.mul rd rs1 rs2)
  else if f = e.aluf .div then .ok (.div rd rs1 rs2)
  else .error (.unknownAluFunc f)

/-- Format FM: `rd(5), rs(5)`. -/
def decodeMemory (make : RegIdx → RegIdx → Instr) (w : Word) : Instr :=
  make (drawTwoRegs w).1.1 (drawTwoRegs w).1.2

/-- Format FL: `rd(5), rs(5), imm(16), lhw(1)`; `lhw` 1 is true (R107). -/
def decodeLoadi (w : Word) : Instr :=
  let regs := drawTwoRegs w
  let imm := drawBits w regs.2 16
  let lhw := drawBits w imm.2 1
  .loadi regs.1.1 regs.1.2 imm.1 (lhw.1 == 1)

/-- Format FJC: `rs(5), select(4)`. -/
def decodeJmpc (w : Word) : Instr :=
  let rs := drawBits w 4 5
  let select := drawBits w rs.2 4
  .jmpc rs.1 select.1

/-- Format FJIC: `offset(24, signed), select(4)`. -/
def decodeJmpic (w : Word) : Instr :=
  let offset := drawOffset w
  let select := drawBits w offset.2 4
  .jmpic offset.1 select.1

/-- `Decode` (R110) under the maps `e`: total on every word, reading only the fields of the selected format. -/
def decodeWith (e : OpcodeMap) (w : Word) : Except DecodeError Instr :=
  let op := opcodeField w
  if op = e.opc .alu then decodeAlu e w
  else if op = e.opc .lsl then .ok (decodeShift .lsl w)
  else if op = e.opc .asr then .ok (decodeShift .asr w)
  else if op = e.opc .lsr then .ok (decodeShift .lsr w)
  else if op = e.opc .load then .ok (decodeMemory .load w)
  else if op = e.opc .loadi then .ok (decodeLoadi w)
  else if op = e.opc .store then .ok (decodeMemory .store w)
  else if op = e.opc .jmp then .ok (.jmp (drawBits w 4 5).1)
  else if op = e.opc .jmpi then .ok (.jmpi (drawOffset w).1)
  else if op = e.opc .jmpc then .ok (decodeJmpc w)
  else if op = e.opc .jmpic then .ok (decodeJmpic w)
  else if op = e.opc .brk then .ok .brk
  else .error (.unknownOpcode op)

/-- The decoder of the machine: R110 under the reference assignment (R111, R112). -/
def decode (w : Word) : Except DecodeError Instr := decodeWith .reference w

/-! ### The encoder (R118): unused bits are zero (R115, D13). -/

/-- `enc_FS` of R118. -/
def encodeFS (op : BitVec 4) (rd rs1 rs2 : RegIdx) : Word :=
  op.setWidth 32 ||| rd.setWidth 32 <<< 4 ||| rs1.setWidth 32 <<< 9 ||| rs2.setWidth 32 <<< 14

/-- `enc_FA` of R118. -/
def encodeFA (op : BitVec 4) (rd rs1 rs2 : RegIdx) (f : BitVec 5) : Word :=
  encodeFS op rd rs1 rs2 ||| f.setWidth 32 <<< 19

/-- `enc_FM` of R118. -/
def encodeFM (op : BitVec 4) (rd rs : RegIdx) : Word :=
  op.setWidth 32 ||| rd.setWidth 32 <<< 4 ||| rs.setWidth 32 <<< 9

/-- `enc_FL` of R118. -/
def encodeFL (op : BitVec 4) (rd rs : RegIdx) (imm : BitVec 16) (lhw : Bool) : Word :=
  encodeFM op rd rs ||| imm.setWidth 32 <<< 14 ||| (BitVec.ofBool lhw).setWidth 32 <<< 30

/-- `enc_FJ` of R118. -/
def encodeFJ (op : BitVec 4) (rs : RegIdx) : Word :=
  op.setWidth 32 ||| rs.setWidth 32 <<< 4

/-- `enc_FJI` of R118: the low 24 bits of the offset. -/
def encodeFJI (op : BitVec 4) (offset : Int) : Word :=
  op.setWidth 32 ||| (BitVec.ofInt 24 offset).setWidth 32 <<< 4

/-- `enc_FJC` of R118. -/
def encodeFJC (op : BitVec 4) (rs : RegIdx) (select : BitVec 4) : Word :=
  encodeFJ op rs ||| select.setWidth 32 <<< 9

/-- `enc_FJIC` of R118. -/
def encodeFJIC (op : BitVec 4) (offset : Int) (select : BitVec 4) : Word :=
  encodeFJI op offset ||| select.setWidth 32 <<< 28

/-- `enc_FB` of R118. -/
def encodeFB (op : BitVec 4) : Word := op.setWidth 32

/-- The one word of an instruction under the maps `e` (R100, R118). -/
def encodeWith (e : OpcodeMap) : Instr → Word
  | .and rd rs1 rs2 => encodeFA (e.opc .alu) rd rs1 rs2 (e.aluf .and)
  | .or rd rs1 rs2 => encodeFA (e.opc .alu) rd rs1 rs2 (e.aluf .or)
  | .nor rd rs1 rs2 => encodeFA (e.opc .alu) rd rs1 rs2 (e.aluf .nor)
  | .xor rd rs1 rs2 => encodeFA (e.opc .alu) rd rs1 rs2 (e.aluf .xor)
  | .add rd rs1 rs2 => encodeFA (e.opc .alu) rd rs1 rs2 (e.aluf .add)
  | .sub rd rs1 rs2 => encodeFA (e.opc .alu) rd rs1 rs2 (e.aluf .sub)
  | .mul rd rs1 rs2 => encodeFA (e.opc .alu) rd rs1 rs2 (e.aluf .mul)
  | .div rd rs1 rs2 => encodeFA (e.opc .alu) rd rs1 rs2 (e.aluf .div)
  | .lsl rd rs1 rs2 => encodeFS (e.opc .lsl) rd rs1 rs2
  | .asr rd rs1 rs2 => encodeFS (e.opc .asr) rd rs1 rs2
  | .lsr rd rs1 rs2 => encodeFS (e.opc .lsr) rd rs1 rs2
  | .load rd rs => encodeFM (e.opc .load) rd rs
  | .loadi rd rs imm lhw => encodeFL (e.opc .loadi) rd rs imm lhw
  | .store rd rs => encodeFM (e.opc .store) rd rs
  | .jmp rs => encodeFJ (e.opc .jmp) rs
  | .jmpi offset => encodeFJI (e.opc .jmpi) offset
  | .jmpc rs select => encodeFJC (e.opc .jmpc) rs select
  | .jmpic offset select => encodeFJIC (e.opc .jmpic) offset select
  | .brk => encodeFB (e.opc .brk)

/-- The encoder under the reference assignment. -/
def encode (i : Instr) : Word := encodeWith .reference i

/-- The word the Breakpoint Manager plants (R116): `OPC(BREAK)` in bits 3:0 with bits 31:4 zero, for the maps `e`
(`OPC` is open, R6). -/
def sentinelWord (e : OpcodeMap) : Word := encodeWith e .brk

/-- The host's view of the decoder: `w`'s low `nbits` bits as the one word of an instruction, every higher bit 0. -/
def decodeTableWord (nbits w : Nat) : Option Instr :=
  (decode (BitVec.ofNat 32 (w % 2 ^ nbits))).toOption

end Sys2Proof
end

