-- ==== Sys2Proof/Machine/State.lean ====
section
/-! DEFINITION. The state of the core as plain data (spec/10_state.md section 1), the reasons a step can stop, and the
state after reset (spec/70_reset_and_hazards.md R240). Operations over it stand in Ops.lean and after. -/

namespace Sys2Proof.Machine

/-- The flag vector: Zero, Negative, Carry, Overflow (R27). -/
structure Flags where
  z : Bool
  n : Bool
  c : Bool
  o : Bool
  deriving DecidableEq, Repr

/-- The run mode (R41). Halted is terminal, and it is not the fault state (R200, R216). -/
inductive Mode where
  | running
  | halted
  deriving DecidableEq, Repr

/-- The fatal conditions, with what R207 says is recorded beside the address. -/
inductive FatalKind where
  /-- IllFormedProgram(PcOutOfBounds) (R201). -/
  | pcOutOfBounds
  /-- IllFormedProgram(UnknownOpcode), with bits 3:0 (R202). -/
  | unknownOpcode (op : BitVec 4)
  /-- IllFormedProgram(UnknownAluFunc), with the `alufunc` field (R202). -/
  | unknownAluFunc (f : BitVec 5)
  /-- DivisionByZero (R203). -/
  | divisionByZero
  /-- BreakWithoutRecord (R204). -/
  | breakWithoutRecord
  deriving DecidableEq, Repr

/-- The record `(kind, a)` of the fault state (R200). -/
structure FaultRecord where
  kind : FatalKind
  addr : Word
  deriving DecidableEq, Repr

/-- The diagnostics: events sent to the host, which stop nothing (R205). -/
inductive Diag where
  /-- A LOAD from a never-written address. -/
  | uninitializedRead (addr : Word)
  /-- BREAK reports the breakpoint hit. -/
  | breakpointHit (addr : Word)
  deriving DecidableEq, Repr

/-- A breakpoint's record: the saved instruction word and the enabled flag (R222). -/
structure Breakpoint where
  saved : Word
  enabled : Bool
  deriving DecidableEq, Repr

/-- A clock snapshot (R77). Only the seconds are bounded; every other field is any value (R79, R80; log entry 5). -/
structure Snapshot where
  sec : Fin 60
  min : Word
  hour : Word
  mday : Word
  mon : Word
  year : Word
  wday : Word
  extra : Word
  deriving DecidableEq, Repr

/-- A wall-clock time in the terms of R77: the seconds that are taken mod 60, the year that 1900 is added to, the month
by its place in the year, the weekday by name. What each is captured as is `Snapshot.ofClock`. -/
structure ClockTime where
  seconds : Nat
  minute : Word
  hour : Word
  mday : Word
  month : Fin 12
  year : Word
  weekday : Weekday
  extra : Word
  deriving DecidableEq, Repr

/-- The memory subsystem (R2): RAM, its bookkeeping, and the clock input its listener draws.

`cells` are the RAM words that differ from what an unlisted address reads as, by rising address (R60; log entry 8).
`written` is the set of addresses ever written, by rising address (R43). `extent` is the least length the host's RAM
buffer must have: one more than the highest address accessed so far (R65; log entry 13). `rtcInputs` are snapshots
the environment has ready, and `rtcDraws` counts the snapshots taken (log entry 5). -/
structure Memory where
  cells : List (Nat × Word)
  written : List Nat
  extent : Nat
  rtcInputs : List Snapshot
  rtcDraws : Nat
  deriving DecidableEq, Repr

/-- The state of the core. The fields up to `fault` are the spec's (10_state.md section 1); `diags` is the output
trace R205 allows (log entry 9); `tickInputs` are the clock tests the environment has ready, and `draws` counts the
clock tests made (log entry 4). -/
structure State where
  regs : Vector Word 32
  flags : Flags
  code : List Word
  pc : Word
  mode : Mode
  atBreakpoint : Bool
  mem : Memory
  breakpoints : List (Nat × Breakpoint)
  fault : Option FaultRecord
  diags : List Diag
  tickInputs : List Bool
  draws : Nat
  deriving DecidableEq, Repr

/-- Why a step has no next state. -/
inductive Fault where
  /-- Raised by `step` in the fault state: "The fault state has no further step" (R200; 93_implementation_defined.md
  row 21, stuck). Entering the fault state is a next state (log entry 6). Safe: the machine stops where the spec
  says no step exists. -/
  | inFaultState (r : FaultRecord)
  deriving DecidableEq, Repr

/-- Why an instruction is refused. -/
inductive Refusal where
  /-- Raised by `exec` for an instruction that has no meaning yet; no arm raises it. Safe. -/
  | notModelled (mnemonic : String)
  deriving DecidableEq, Repr

/-- RAM at reset: all zero, nothing written, nothing accessed (R60, R240). -/
def Memory.reset : Memory where
  cells := []
  written := []
  extent := 0
  rtcInputs := []
  rtcDraws := 0

/-- The machine after reset (R240) with no program and no RAM file: `code` is empty and CODE_LEN is 0 (R241). A
program file and a RAM file are put in by `State.construct` (R242, R243; log entry 10). Registers and flags are the
opaque draws of Config (log entries 2 and 3). -/
def State.reset : State where
  regs := Vector.ofFn fun i : Fin 32 => Config.resetReg i.val
  flags := ⟨Config.resetFlag 0, Config.resetFlag 1, Config.resetFlag 2, Config.resetFlag 3⟩
  code := []
  pc := 0
  mode := .running
  atBreakpoint := false
  mem := Memory.reset
  breakpoints := []
  fault := none
  diags := []
  tickInputs := []
  draws := 0

end Sys2Proof.Machine
end

