-- ==== Sys2Proof/Machine/Ops.lean ====
section
/-! DEFINITION. The named operations over registers, RAM, diagnostics and the fault state: the primitives of
spec/00_scope.md R9. -/

namespace Sys2Proof.Machine

/-! ### Registers (R22, R23) -/

/-- `x[i]` as a value: the read contract. Registers 0 and 1 read 0 and 1 whatever the backing array holds (R22). -/
def State.x (s : State) (i : RegIdx) : Word :=
  if i = 0 then 0
  else if i = 1 then 1
  else s.regs[i.toNat]'i.isLt

/-- `x[i] <- v`: the write contract. The backing array takes the value at every index (R23). -/
def State.setX (s : State) (i : RegIdx) (v : Word) : State :=
  { s with regs := s.regs.set i.toNat v i.isLt }

/-! ### RAM (R60 to R65) -/

/-- `ram[a]` (R60): an unlisted word reads `Config.unlistedWord`. -/
def Memory.read (m : Memory) (a : Word) : Word :=
  (SortedMap.get a.toNat m.cells).getD Config.unlistedWord

/-- Whether `a` is in `written` (R43). -/
def Memory.isWritten (m : Memory) (a : Word) : Bool := m.written.contains a.toNat

/-- An access to `a` reaches at least `a + 1` words of the host's RAM buffer (R65). -/
def Memory.touch (m : Memory) (a : Word) : Memory :=
  { m with extent := max m.extent (a.toNat + 1) }

/-- A raw store: `ram[a] <- v` and `a` joins `written`; no listener runs (R72). Writing what an unlisted word reads as
takes the entry out, so that equal memories are equal data. -/
def Memory.rawStore (m : Memory) (a v : Word) : Memory :=
  { m with
    cells := if v = Config.unlistedWord then SortedMap.erase a.toNat m.cells else SortedMap.put a.toNat v m.cells
    written := SortedSet.insert a.toNat m.written
    extent := max m.extent (a.toNat + 1) }

/-- A clock time as R77 has it captured into the fields: under the open encodings `e`, which are arguments (R6, R79). -/
def Snapshot.ofClock (e : RtcEncoding) (t : ClockTime) : Snapshot where
  sec := Fin.ofNat 60 t.seconds
  min := t.minute
  hour := t.hour
  mday := t.mday
  mon := BitVec.ofNat 32 (e.monthBase.val + t.month.val)
  year := t.year + 1900
  wday := e.weekday t.weekday
  extra := t.extra

/-- The snapshot the environment draws next: its own input if it has one ready, a free value otherwise (R77, R79). -/
def Memory.nextSnapshot (m : Memory) : Snapshot :=
  match m.rtcInputs with
  | t :: _ => t
  | [] =>
    { sec := Config.rtcSec m.rtcDraws
      min := Config.rtcField m.rtcDraws 1
      hour := Config.rtcField m.rtcDraws 2
      mday := Config.rtcField m.rtcDraws 3
      mon := Config.rtcField m.rtcDraws 4
      year := Config.rtcField m.rtcDraws 5
      wday := Config.rtcField m.rtcDraws 6
      extra := Config.rtcField m.rtcDraws 7 }

/-- The eight raw stores of a snapshot, in the fixed field order of R77 and R81. -/
def Memory.storeSnapshot (m : Memory) (t : Snapshot) : Memory :=
  ((((((((m.rawStore 1026 (BitVec.ofNat 32 t.sec.val)).rawStore 1027 t.min).rawStore 1028 t.hour).rawStore
    1029 t.mday).rawStore 1030 t.mon).rawStore 1031 t.year).rawStore 1032 t.wday).rawStore 1033 t.extra)

/-- `callback_RTC` (R77): a non-zero value draws a snapshot and stores it; zero does nothing (R78). -/
def Memory.captureRtc (m : Memory) (v : Word) : Memory :=
  if v = 0 then m
  else
    { m with rtcInputs := m.rtcInputs.tail, rtcDraws := m.rtcDraws + 1 }.storeSnapshot m.nextSnapshot

/-- Runs one listener's callback with the value just stored. -/
def Memory.runCallback (m : Memory) (v : Word) : Callback → Memory
  | .rtcCapture => m.captureRtc v

/-- Whether `a` lies in a listener's range (R71). -/
def listens (l : Listener) (a : Word) : Bool := decide (l.lo.toNat ≤ a.toNat) && decide (a.toNat ≤ l.hi.toNat)

/-- Runs, in the table's order, every listener whose range holds `a` (R64). -/
def Memory.notify (m : Memory) (a v : Word) : List Listener → Memory
  | [] => m
  | l :: rest =>
    Memory.notify (if listens l a then m.runCallback v l.callback else m) a v rest

/-- `MemWrite(a, 1, v)`: store, mark written, then notify (R64). -/
def Memory.write (m : Memory) (a v : Word) : Memory :=
  (m.rawStore a v).notify a v Config.listeners

/-- The canonical form of RAM: cells by rising address, none holding what an unlisted word reads as, every address in
the 32-bit space; every listed cell written; every written address below the extent. -/
abbrev Memory.wf (m : Memory) : Prop :=
  SortedMap.wf m.cells ∧ (∀ c ∈ m.cells, c.2 ≠ Config.unlistedWord ∧ c.1 ∈ m.written) ∧
    SortedSet.wf m.written ∧ (∀ a ∈ m.written, a < m.extent) ∧ m.extent ≤ addressSpace

/-! ### Diagnostics and the fault state (R200, R205) -/

/-- `emit Diag(…)`: the event goes to the host's trace (R205). -/
def State.emit (s : State) (d : Diag) : State := { s with diags := s.diags ++ [d] }

/-- `MemRead(a, 1)` apart from its value: a never-written address emits the diagnostic (R62); the access reaches the
host's buffer (R65). The value is `s.mem.read a`. -/
def State.noteRead (s : State) (a : Word) : State :=
  { s with
    mem := s.mem.touch a
    diags := if s.mem.isWritten a then s.diags else s.diags ++ [.uninitializedRead a] }

/-- `raise Fatal(kind)` with the address it records: the one way into the fault state (R200). The effects made earlier
in the step stay. -/
def State.raiseFatal (s : State) (kind : FatalKind) (a : Word) : State :=
  { s with fault := some ⟨kind, a⟩ }

/-- The address of the instruction being executed: during it `pc` holds that address plus 1 (R36). -/
def State.instrAddr (s : State) : Word := s.pc - 1

/-- The flags after an ALU fault are unspecified: free values (R200, D23; log entry 7). -/
def State.unspecifiedFlags (s : State) : Flags :=
  ⟨Config.faultFlag s.draws 0 s.flags.z, Config.faultFlag s.draws 1 s.flags.n, Config.faultFlag s.draws 2 s.flags.c,
    Config.faultFlag s.draws 3 s.flags.o⟩

/-- An ALU fault: the record at the instruction's address, the flags unspecified, nothing else written (R200). -/
def State.raiseAluFault (s : State) (kind : FatalKind) : State :=
  { s with flags := s.unspecifiedFlags }.raiseFatal kind s.instrAddr

end Sys2Proof.Machine
end

