-- ==== Sys2Proof/Machine/Cycle.lean ====
section
/-! DEFINITION. The parts of a step around the instruction (spec/10_state.md R44): clearing `at_breakpoint`, the tick,
the fetch, the pc's advance, a word that does not decode, the halt test; and placing a word where the fetch reads. -/

namespace Sys2Proof.Machine

/-- Whether the clock test of this step finds a second elapsed: the environment's own input if it has one ready, a
free value otherwise (R75, D18). -/
def State.tickNow (s : State) : Bool :=
  match s.tickInputs with
  | b :: _ => b
  | [] => Config.tickDue s.draws

/-- The start of a step in mode Running (R44): `at_breakpoint` cleared (R42), the clock tested, the tick written
through `MemWrite` (R72, R75). -/
def State.beginStep (s : State) : State :=
  { s with
    atBreakpoint := false
    mem := if s.tickNow then s.mem.write Config.tickAddr 1 else s.mem
    tickInputs := s.tickInputs.tail
    draws := s.draws + 1 }

/-- `CodeRead(pc)`, or none where `unsigned(pc) >= CODE_LEN` (R33, R44). -/
def State.fetch (s : State) : Option Word := s.code[s.pc.toNat]?

/-- `pc <- a + 1`, modulo 2^32 (R36, R39). -/
def State.advance (s : State) : State := { s with pc := s.pc + 1 }

/-- A word that does not decode is fatal, after the pc's advance (R113, R114, R202). -/
def State.raiseUndecoded (s : State) : DecodeError → State
  | .unknownOpcode op => s.raiseFatal (.unknownOpcode op) s.instrAddr
  | .unknownAluFunc f => s.raiseAluFault (.unknownAluFunc f)

/-- The end of a step (R46): a step that has not faulted and ends with `unsigned(pc) = CODE_LEN` halts. -/
def State.endStep (s : State) : State :=
  { s with mode := if s.fault = none ∧ s.pc.toNat = s.code.length then .halted else s.mode }

/-- The code array with `w` at index `k`, lengthened with zero words as far as that takes. -/
def placeWord (code : List Word) (k : Nat) (w : Word) : List Word :=
  (code ++ List.replicate (k + 1 - code.length) 0).set k w

end Sys2Proof.Machine
end

