-- ==== Sys2Proof/Machine/Operands.lean ====
section
/-! DEFINITION. The operand forms: register, shift amount, LOADI's addend, the select test, the relative target. -/

namespace Sys2Proof.Machine

/-- The shift amount: the low 5 bits of `x[rs2]` (R160). -/
def State.shiftAmount (s : State) (rs2 : RegIdx) : Nat := (s.x rs2 &&& 0x1F#32).toNat

/-- What LOADI adds: `zext_16(imm)` for `lhw` true, shifted left by 16 for `lhw` false (R107, D4). -/
def loadiAddend (imm : BitVec 16) (lhw : Bool) : Word :=
  if lhw then imm.setWidth 32 else imm.setWidth 32 <<< 16

/-- `cond(select)`: any selected flag set; bit 0 is Z, 1 N, 2 C, 3 O (R108, D3). -/
def Flags.selected (f : Flags) (select : BitVec 4) : Bool :=
  (select.getLsbD 0 && f.z) || (select.getLsbD 1 && f.n) || (select.getLsbD 2 && f.c) || (select.getLsbD 3 && f.o)

/-- `pc + sext_24(offset)`, modulo 2^32, on the pc already advanced past the jump (R39, R181, D5). -/
def State.relativeTarget (s : State) (offset : Int) : Word := s.pc + BitVec.ofInt 32 offset

end Sys2Proof.Machine
end

