-- ==== Sys2Proof/Machine/Flags.lean ====
section
/-! DEFINITION. The flag computations of the ALU (spec/40_alu.md R140 to R142). -/

namespace Sys2Proof.Machine

/-- A mathematical result outside the unsigned 32-bit range (R142). -/
def unsignedOverflows (n : Int) : Bool := decide (n < 0 ∨ 2 ^ 32 - 1 < n)

/-- A mathematical result outside the signed 32-bit range (R142). -/
def signedOverflows (n : Int) : Bool := decide (n < -2 ^ 31 ∨ 2 ^ 31 - 1 < n)

/-- What an ALU function computes: the result and the flags C and O (`F_alufunc` of R140). -/
structure AluResult where
  r : Word
  c : Bool
  o : Bool
  deriving DecidableEq, Repr

/-- The flag vector of a result: Z is `r = 0`, N is bit 31 (R140). -/
def AluResult.flags (q : AluResult) : Flags := ⟨q.r == 0, q.r.msb, q.c, q.o⟩

/-- A function that leaves C and O cleared (R140). -/
def aluPlain (r : Word) : AluResult := ⟨r, false, false⟩

/-- An arithmetic function: the wrapped result, C and O from the mathematical results of the unsigned and of the
signed view (R141, R142). -/
def aluArith (r : Word) (unsignedResult signedResult : Int) : AluResult :=
  ⟨r, unsignedOverflows unsignedResult, signedOverflows signedResult⟩

/-- R143. -/
def aluAnd (a b : Word) : AluResult := aluPlain (a &&& b)

/-- R144. -/
def aluOr (a b : Word) : AluResult := aluPlain (a ||| b)

/-- R145. -/
def aluNor (a b : Word) : AluResult := aluPlain (~~~(a ||| b))

/-- R146. -/
def aluXor (a b : Word) : AluResult := aluPlain (a ^^^ b)

/-- R147. -/
def aluAdd (a b : Word) : AluResult := aluArith (a + b) (a.toNat + b.toNat) (a.toInt + b.toInt)

/-- R148; C is a borrow (D30). -/
def aluSub (a b : Word) : AluResult := aluArith (a - b) (a.toNat - b.toNat) (a.toInt - b.toInt)

/-- R149; the low word of the product. -/
def aluMul (a b : Word) : AluResult := aluArith (a * b) (a.toNat * b.toNat) (a.toInt * b.toInt)

/-- R150, for a divisor that is not 0: unsigned, truncating. -/
def aluDiv (a b : Word) : AluResult := aluPlain (a / b)

/-- The end of the ALU handler (R140): all four flags recomputed, then `x[rd] <- r`. -/
def State.finishAlu (s : State) (rd : RegIdx) (q : AluResult) : State :=
  { s with flags := q.flags }.setX rd q.r

end Sys2Proof.Machine
end

