-- ==== Sys2Proof/Machine/Alu.lean ====
section
/-! DEFINITION. The eight ALU functions (spec/40_alu.md). Both operands are read through the read contract before `rd`
is written (R140). -/

namespace Sys2Proof.Machine

/-- AND (R143). -/
def execAnd (rd rs1 rs2 : RegIdx) (s : State) : Host.Outcome State Fault Refusal :=
  .next (s.finishAlu rd (aluAnd (s.x rs1) (s.x rs2)))

/-- OR (R144). -/
def execOr (rd rs1 rs2 : RegIdx) (s : State) : Host.Outcome State Fault Refusal :=
  .next (s.finishAlu rd (aluOr (s.x rs1) (s.x rs2)))

/-- NOR (R145). -/
def execNor (rd rs1 rs2 : RegIdx) (s : State) : Host.Outcome State Fault Refusal :=
  .next (s.finishAlu rd (aluNor (s.x rs1) (s.x rs2)))

/-- XOR (R146). -/
def execXor (rd rs1 rs2 : RegIdx) (s : State) : Host.Outcome State Fault Refusal :=
  .next (s.finishAlu rd (aluXor (s.x rs1) (s.x rs2)))

/-- ADD (R147). -/
def execAdd (rd rs1 rs2 : RegIdx) (s : State) : Host.Outcome State Fault Refusal :=
  .next (s.finishAlu rd (aluAdd (s.x rs1) (s.x rs2)))

/-- SUB (R148): rs1 minus rs2. -/
def execSub (rd rs1 rs2 : RegIdx) (s : State) : Host.Outcome State Fault Refusal :=
  .next (s.finishAlu rd (aluSub (s.x rs1) (s.x rs2)))

/-- MUL (R149). -/
def execMul (rd rs1 rs2 : RegIdx) (s : State) : Host.Outcome State Fault Refusal :=
  .next (s.finishAlu rd (aluMul (s.x rs1) (s.x rs2)))

/-- DIV (R150): rs1 divided by rs2, unsigned; a zero divisor enters the fault state with DivisionByZero, `rd` not
written and the flags unspecified (R203, R200). -/
def execDiv (rd rs1 rs2 : RegIdx) (s : State) : Host.Outcome State Fault Refusal :=
  .next (if s.x rs2 = 0 then s.raiseAluFault .divisionByZero
    else s.finishAlu rd (aluDiv (s.x rs1) (s.x rs2)))

end Sys2Proof.Machine
end

