-- ==== Sys2Proof/Machine/Break.lean ====
section
/-! DEFINITION. BREAK (spec/44_break.md R190) and the Breakpoint Manager (spec/60_exceptions.md R222 to R226). -/

namespace Sys2Proof.Machine

/-- The record at a code address, if there is one (R222). -/
def State.breakpointAt (s : State) (a : Word) : Option Breakpoint := SortedMap.get a.toNat s.breakpoints

/-- Writes one code word; only the loader and the Breakpoint Manager do (R34). -/
def State.setCode (s : State) (a w : Word) : State := { s with code := s.code.set a.toNat w }

/-- Sets the record at a code address. -/
def State.setBreakpoint (s : State) (a : Word) (b : Breakpoint) : State :=
  { s with breakpoints := SortedMap.put a.toNat b s.breakpoints }

/-- `disable(a)` for the record `b` at `a`: the saved word goes back and the record stays, disabled (R224). -/
def State.disableBreakpoint (s : State) (a : Word) (b : Breakpoint) : State :=
  (s.setCode a b.saved).setBreakpoint a { b with enabled := false }

/-- BREAK's fatal case: no enabled record at its address (R204, D20). -/
def State.breakUnrecorded (s : State) (a : Word) : State := s.raiseFatal .breakWithoutRecord a

/-- BREAK at `a` after the report: disable the enabled record and raise `at_breakpoint`, or end the run (R190). -/
def State.takeBreak (s : State) (a : Word) : State :=
  match s.breakpointAt a with
  | some b => if b.enabled then { s.disableBreakpoint a b with atBreakpoint := true } else s.breakUnrecorded a
  | none => s.breakUnrecorded a

/-- BREAK (R190): `pc` back onto the BREAK, the hit reported, the record's word restored. -/
def execBreak (s : State) : Host.Outcome State Fault Refusal :=
  .next (({ s with pc := s.instrAddr }.emit (.breakpointHit s.instrAddr)).takeBreak s.instrAddr)

/-- `add(addr)` (R223, D21) under the maps `e`, which give the sentinel (R116): no effect beyond the code or on an
enabled record; `saved` is kept on re-enabling. -/
def State.addBreakpoint (s : State) (e : OpcodeMap) (a : Word) : State :=
  match s.code[a.toNat]? with
  | none => s
  | some w =>
    match s.breakpointAt a with
    | none => (s.setBreakpoint a ⟨w, true⟩).setCode a (sentinelWord e)
    | some b =>
      if b.enabled then s else (s.setBreakpoint a { b with enabled := true }).setCode a (sentinelWord e)

/-- Deletes the record at a code address. -/
def State.deleteBreakpoint (s : State) (a : Word) : State :=
  { s with breakpoints := SortedMap.erase a.toNat s.breakpoints }

/-- `remove(addr)` (R225, D21): an enabled record's word is restored first; no effect where there is no record. -/
def State.removeBreakpoint (s : State) (a : Word) : State :=
  match s.breakpointAt a with
  | none => s
  | some b => (if b.enabled then s.setCode a b.saved else s).deleteBreakpoint a

/-- Every record's address and enabled state (R226). -/
def State.breakpointEntries (s : State) : List (Nat × Bool) :=
  s.breakpoints.map fun r => (r.1, r.2.enabled)

/-- `l` is an answer of `list()`: every record once, in any order (R226; log entry 14). -/
abbrev State.IsBreakpointListing (s : State) (l : List (Nat × Bool)) : Prop := l.Perm s.breakpointEntries

end Sys2Proof.Machine
end

