-- ==== Sys2Proof/Machine/Jump.lean ====
section
/-! DEFINITION. The jumps (spec/43_jump.md). On entry `pc` is the jump's address plus 1 (R36); a target is not checked
here but at the next fetch (R38, R184). -/

namespace Sys2Proof.Machine

/-- JMP (R180). -/
def execJmp (rs : RegIdx) (s : State) : Host.Outcome State Fault Refusal :=
  .next { s with pc := s.x rs }

/-- JMPI (R181): relative to the instruction after the jump. -/
def execJmpi (offset : Int) (s : State) : Host.Outcome State Fault Refusal :=
  .next { s with pc := s.relativeTarget offset }

/-- JMPC (R182): taken if any selected flag is set. -/
def execJmpc (rs : RegIdx) (select : BitVec 4) (s : State) : Host.Outcome State Fault Refusal :=
  .next { s with pc := if s.flags.selected select then s.x rs else s.pc }

/-- JMPIC (R183): taken if any selected flag is set. -/
def execJmpic (offset : Int) (select : BitVec 4) (s : State) : Host.Outcome State Fault Refusal :=
  .next { s with pc := if s.flags.selected select then s.relativeTarget offset else s.pc }

end Sys2Proof.Machine
end

