-- ==== Sys2Proof/Machine/LoadStore.lean ====
section
/-! DEFINITION. LOAD, LOADI and STORE (spec/42_load_store.md). None touches a flag or faults. -/

namespace Sys2Proof.Machine

/-- LOAD (R170): the address is `x[rs]`, read before `rd` is written. -/
def execLoad (rd rs : RegIdx) (s : State) : Host.Outcome State Fault Refusal :=
  .next ((s.noteRead (s.x rs)).setX rd (s.mem.read (s.x rs)))

/-- LOADI (R171): additive, modulo 2^32. -/
def execLoadi (rd rs : RegIdx) (imm : BitVec 16) (lhw : Bool) (s : State) : Host.Outcome State Fault Refusal :=
  .next (s.setX rd (s.x rs + loadiAddend imm lhw))

/-- STORE (R172): the address is `x[rd]`, the datum `x[rs]`; no register is written. -/
def execStore (rd rs : RegIdx) (s : State) : Host.Outcome State Fault Refusal :=
  .next { s with mem := s.mem.write (s.x rd) (s.x rs) }

end Sys2Proof.Machine
end

