-- ==== Sys2Proof/Machine/Shift.lean ====
section
/-! DEFINITION. The shifts (spec/41_shift.md). No shift touches a flag or raises an exception (R160). -/

namespace Sys2Proof.Machine

/-- LSL: zeros enter at bit 0 (R161). -/
def execLsl (rd rs1 rs2 : RegIdx) (s : State) : Host.Outcome State Fault Refusal :=
  .next (s.setX rd (s.x rs1 <<< s.shiftAmount rs2))

/-- ASR: bit 31 is copied into each vacated bit (R162). -/
def execAsr (rd rs1 rs2 : RegIdx) (s : State) : Host.Outcome State Fault Refusal :=
  .next (s.setX rd ((s.x rs1).sshiftRight (s.shiftAmount rs2)))

/-- LSR: zeros enter at bit 31 (R163). -/
def execLsr (rd rs1 rs2 : RegIdx) (s : State) : Host.Outcome State Fault Refusal :=
  .next (s.setX rd (s.x rs1 >>> s.shiftAmount rs2))

end Sys2Proof.Machine
end

