-- ==== Sys2Proof/Machine/Dispatch.lean ====
section
/-! DEFINITION. `Execute` (spec/10_state.md R44): one meaning for each instruction. -/

namespace Sys2Proof.Machine

-- The dispatch by opcode and function (R44, R110, R140).
def exec (i : Instr) (s : State) : Host.Outcome State Fault Refusal :=
  match i with
  | .and rd rs1 rs2 => Sys2Proof.Machine.execAnd rd rs1 rs2 s
  | .or rd rs1 rs2 => Sys2Proof.Machine.execOr rd rs1 rs2 s
  | .nor rd rs1 rs2 => Sys2Proof.Machine.execNor rd rs1 rs2 s
  | .xor rd rs1 rs2 => Sys2Proof.Machine.execXor rd rs1 rs2 s
  | .add rd rs1 rs2 => Sys2Proof.Machine.execAdd rd rs1 rs2 s
  | .sub rd rs1 rs2 => Sys2Proof.Machine.execSub rd rs1 rs2 s
  | .mul rd rs1 rs2 => Sys2Proof.Machine.execMul rd rs1 rs2 s
  | .div rd rs1 rs2 => Sys2Proof.Machine.execDiv rd rs1 rs2 s
  | .lsl rd rs1 rs2 => Sys2Proof.Machine.execLsl rd rs1 rs2 s
  | .asr rd rs1 rs2 => Sys2Proof.Machine.execAsr rd rs1 rs2 s
  | .lsr rd rs1 rs2 => Sys2Proof.Machine.execLsr rd rs1 rs2 s
  | .load rd rs => Sys2Proof.Machine.execLoad rd rs s
  | .loadi rd rs imm lhw => Sys2Proof.Machine.execLoadi rd rs imm lhw s
  | .store rd rs => Sys2Proof.Machine.execStore rd rs s
  | .jmp rs => Sys2Proof.Machine.execJmp rs s
  | .jmpi offset => Sys2Proof.Machine.execJmpi offset s
  | .jmpc rs select => Sys2Proof.Machine.execJmpc rs select s
  | .jmpic offset select => Sys2Proof.Machine.execJmpic offset select s
  | .brk => Sys2Proof.Machine.execBreak s

end Sys2Proof.Machine
end

