-- ==== Sys2Proof/Machine/Step.lean ====
section
/-! DEFINITION. One call of `step()` (spec/10_state.md R44 to R46, R49), and where the host puts an instruction so that
the next step fetches it. -/

namespace Sys2Proof.Machine

/-- The last part of a step: the halt test on the state the instruction leaves (R46). -/
def endOutcome : Host.Outcome State Fault Refusal → Host.Outcome State Fault Refusal
  | .next t => .next t.endStep
  | .fault r => .fault r
  | .refused r => .refused r

/-- Decode and execute a fetched word under the maps `e`, with the pc already advanced (R44). -/
def runWordWith (e : OpcodeMap) (w : Word) (s : State) : Host.Outcome State Fault Refusal :=
  match decodeWith e w with
  | .ok i => endOutcome (exec i s)
  | .error d => .next (s.raiseUndecoded d)

/-- `step()` under the maps `e`. In the fault state no step exists (R200); Halted is a no-op (R45); in mode Running,
the order of R44. -/
def stepWith (e : OpcodeMap) (s : State) : Host.Outcome State Fault Refusal :=
  match s.fault, s.mode with
  | some r, _ => .fault (.inFaultState r)
  | none, .halted => .next s
  | none, .running =>
    match s.beginStep.fetch with
    | none => .next (s.beginStep.raiseFatal .pcOutOfBounds s.pc)
    | some w => runWordWith e w s.beginStep.advance

/-- The machine's step: `step()` under the reference assignment (log entry 1). -/
def step (s : State) : Host.Outcome State Fault Refusal := stepWith .reference s

/-- `s` with the instruction word at its pc in code memory, in mode Running and out of the fault state, so that the
next step fetches and runs it (log entry 10). -/
def State.withFetchWord (s : State) (nbits w : Nat) : State :=
  { s with
    code := placeWord s.code s.pc.toNat (BitVec.ofNat 32 (w % 2 ^ nbits))
    mode := .running
    fault := none }

end Sys2Proof.Machine
end

