-- ==== Sys2Proof/Machine/HostOps.lean ====
section
/-! DEFINITION. The host's operations (spec/60_exceptions.md R230), each between steps. Adding, removing and listing
breakpoints stand in Break.lean; nothing sets the pc, the flags, RAM or code memory (R231). -/

namespace Sys2Proof.Machine

/-- `at_end()` (R41). -/
def State.atEnd (s : State) : Bool := decide (s.mode = .halted)

/-- Register get: through the read contract (R230, D28). -/
def State.regGet (s : State) (i : RegIdx) : Word := s.x i

/-- Register set: into the backing array (R230). -/
def State.regSet (s : State) (i : RegIdx) (v : Word) : State := s.setX i v

/-- Flag get (R29). -/
def State.flagGet (s : State) : Flags := s.flags

/-- PC get: CODE_LEN once Halted (R41). -/
def State.pcGet (s : State) : Word := s.pc

/-- The raw code buffer, with sentinels where breakpoints are enabled (R230). -/
def State.codeBuffer (s : State) : List Word := s.code

/-- `l` is an answer of reading the raw RAM buffer: a prefix of RAM, at least as long as R65 says; its exact length is
not specified (log entry 13). -/
abbrev State.IsRamBuffer (s : State) (l : List Word) : Prop :=
  s.mem.extent ≤ l.length ∧ l.length ≤ addressSpace ∧
    ∀ (k : Nat) (h : k < l.length), l[k] = s.mem.read (BitVec.ofNat 32 k)

/-- Whether `execute()` stops its loop on this state: Halted, at a breakpoint, or a fatal condition (R48). -/
def State.stopsExecute (s : State) : Bool :=
  decide (s.mode = .halted) || s.atBreakpoint || s.fault.isSome

/-- `execute()` under the maps `e`, for at most `n` steps (R48; log entry 12). -/
def executeFor (e : OpcodeMap) : Nat → State → Host.Outcome State Fault Refusal
  | 0, s => .next s
  | n + 1, s =>
    match stepWith e s with
    | .next t => if t.stopsExecute then .next t else executeFor e n t
    | .fault r => .fault r
    | .refused r => .refused r

/-- How a run stands (R232). -/
inductive RunEnd where
  | completed
  | faulted
  | suspended
  | running
  deriving DecidableEq, Repr

/-- The classification of R232: the fault state, mode Halted, a breakpoint stop, or a run that goes on. -/
def State.runEnd (s : State) : RunEnd :=
  if s.fault.isSome then .faulted
  else if s.mode = .halted then .completed
  else if s.atBreakpoint then .suspended
  else .running

end Sys2Proof.Machine
end

