-- ==== Sys2Proof/Machine/Loader.lean ====
section
/-! DEFINITION. Reset as the construction of a core from a program file and an optional RAM file
(spec/70_reset_and_hazards.md R240 to R243). -/

namespace Sys2Proof.Machine

/-- A file the loader is given (R206). -/
inductive InputFile where
  | unreadable
  | contents (bytes : List Byte)
  deriving DecidableEq, Repr

/-- The load errors of R206 and R207: one kind, raised before any core exists. -/
inductive LoadError where
  /-- An unreadable file, or a length that is no multiple of 4 (R206, R242). -/
  | malformedInputFile
  deriving DecidableEq, Repr

/-- What the loader of the model refuses, beside the spec's errors: no error of the machine (R207 is closed). -/
inductive LoadRefusal where
  /-- Raised for a RAM file of more than 2^32 words, of which the spec says nothing; safe: no core is built
  (log entry 17). -/
  | ramFileTooLong
  deriving DecidableEq, Repr

/-- Four bytes as a word, little-endian (R66, R242). -/
def wordOfBytes (b0 b1 b2 b3 : Byte) : Word := b3 ++ b2 ++ b1 ++ b0

/-- A file's words, or none where its length is no multiple of 4 (R242). -/
def wordsOfBytes : List Byte → Option (List Word)
  | [] => some []
  | b0 :: b1 :: b2 :: b3 :: rest => (wordsOfBytes rest).map (wordOfBytes b0 b1 b2 b3 :: ·)
  | _ => none

/-- A file read as words (R206, R242). -/
def InputFile.words : InputFile → Except LoadError (List Word)
  | .unreadable => .error .malformedInputFile
  | .contents bytes =>
    match wordsOfBytes bytes with
    | none => .error .malformedInputFile
    | some ws => .ok ws

/-- Word by word from address `k`: raw stores, so each address joins `written` and no listener runs (R72, R243). -/
def Memory.loadFrom (k : Nat) (m : Memory) : List Word → Memory
  | [] => m
  | w :: ws => Memory.loadFrom (k + 1) (m.rawStore (BitVec.ofNat 32 k) w) ws

/-- RAM after the optional RAM file (R243). -/
def Memory.ofFile : Option InputFile → Host.Outcome Memory LoadError LoadRefusal
  | none => .next Memory.reset
  | some file =>
    match file.words with
    | .error e => .fault e
    | .ok ws => if addressSpace < ws.length then .refused .ramFileTooLong else .next (Memory.reset.loadFrom 0 ws)

/-- The core right after construction: the reset state with the program's words as code (R240, R242) and the RAM
file's words in RAM; or the load error, and then no core is built (R206). -/
def State.construct (program : InputFile) (ramFile : Option InputFile) : Host.Outcome State LoadError LoadRefusal :=
  match program.words, Memory.ofFile ramFile with
  | .error e, _ => .fault e
  | .ok _, .fault e => .fault e
  | .ok _, .refused r => .refused r
  | .ok code, .next mem => .next { State.reset with code := code, mem := mem }

end Sys2Proof.Machine
end

