-- ==== Sys2Proof/Safety.lean ====
section
/-! DEFINITION. The terms claims about the machine are stated in: what a register write leaves, the invariant of the
core, the states no program can tell apart, and a safe run. -/

namespace Sys2Proof.Machine

/-- `t` has the registers of `s` after `x[rd] <- v`: the backing array at every index (R23), and what every register
then reads (R22, R24). -/
def RegWritten (s t : State) (rd : RegIdx) (v : Word) : Prop :=
  (∀ (k : Nat) (h : k < 32), t.regs[k] = if k = rd.toNat then v else s.regs[k]) ∧
    ∀ r : RegIdx, t.x r = if r = 0 then 0 else if r = 1 then 1 else if r = rd then v else s.x r

/-- `t` differs from `s` in registers at most. -/
def OnlyRegs (s t : State) : Prop := t = { s with regs := t.regs }

/-- `t` differs from `s` in registers and flags at most. -/
def OnlyRegsFlags (s t : State) : Prop := t = { s with regs := t.regs, flags := t.flags }

/-- `t` differs from `s` in the pc at most. -/
def OnlyPc (s t : State) : Prop := t = { s with pc := t.pc }

/-- Every word of RAM, and whether it was ever written, is the same in `m` and `m'`. -/
def SameRam (m m' : Memory) : Prop := ∀ a : Word, m'.read a = m.read a ∧ m'.isWritten a = m.isWritten a

/-- The breakpoint table is canonical, and code memory agrees with it: the sentinel of the maps `e` at an enabled
record's address, the saved word at a disabled one's (R222, R227). -/
abbrev State.BreakpointsHold (s : State) (e : OpcodeMap) : Prop :=
  SortedMap.wf s.breakpoints ∧
    ∀ r ∈ s.breakpoints, r.1 < addressSpace ∧
      s.code[r.1]? = some (if r.2.enabled then sentinelWord e else r.2.saved)

/-- The invariant of the core under the maps `e`: RAM canonical; breakpoints and code memory agree (R227); Halted means
`pc = CODE_LEN` and no fault (R41, R200); a breakpoint stop is a running core on a code address, without a fault
(R190). -/
abbrev State.Inv (s : State) (e : OpcodeMap) : Prop :=
  s.mem.wf ∧ s.BreakpointsHold e ∧
    (s.mode = .halted → s.fault = none ∧ s.pc.toNat = s.code.length) ∧
    (s.atBreakpoint = true → s.mode = .running ∧ s.fault = none ∧ s.pc.toNat < s.code.length)

/-- Two states that no program can tell apart: they agree in all but the backing words of registers 0 and 1 (R23), the
`written` set (R43), the length of the host's RAM buffer (R65) and the diagnostics so far (R205). -/
structure SameForPrograms (s t : State) : Prop where
  x : ∀ r, s.x r = t.x r
  flags : s.flags = t.flags
  code : s.code = t.code
  pc : s.pc = t.pc
  mode : s.mode = t.mode
  atBreakpoint : s.atBreakpoint = t.atBreakpoint
  cells : s.mem.cells = t.mem.cells
  rtcInputs : s.mem.rtcInputs = t.mem.rtcInputs
  rtcDraws : s.mem.rtcDraws = t.mem.rtcDraws
  breakpoints : s.breakpoints = t.breakpoints
  fault : s.fault = t.fault
  tickInputs : s.tickInputs = t.tickInputs
  draws : s.draws = t.draws

/-- The machine under the maps `e` (R6); under the reference assignment it is `Sys2Proof.core`. -/
def coreWith (e : OpcodeMap) : Host.Core := { Sys2Proof.core with step := stepWith e }

/-- A file that raises MalformedInputFile: unreadable, or of a length that is no multiple of 4 (R206, R242). -/
inductive InputFile.Malformed : InputFile → Prop
  | unreadable : InputFile.Malformed .unreadable
  | length (bytes : List Byte) (h : bytes.length % 4 ≠ 0) : InputFile.Malformed (.contents bytes)

/-- A safe run: however many steps are taken, the machine has not stopped and is not in the fault state (R200, R232). -/
def RunsSafely (s : State) : Prop :=
  ∀ n : Nat, ∃ t : State, Sys2Proof.core.run n s = .next t ∧ t.fault = none

/-- The ALU instructions: the only writers of the flags (R28). -/
def isAlu : Instr → Bool
  | .and _ _ _ => true
  | .or _ _ _ => true
  | .nor _ _ _ => true
  | .xor _ _ _ => true
  | .add _ _ _ => true
  | .sub _ _ _ => true
  | .mul _ _ _ => true
  | .div _ _ _ => true
  | .lsl _ _ _ => false
  | .asr _ _ _ => false
  | .lsr _ _ _ => false
  | .load _ _ => false
  | .loadi _ _ _ _ => false
  | .store _ _ => false
  | .jmp _ => false
  | .jmpi _ => false
  | .jmpc _ _ => false
  | .jmpic _ _ => false
  | .brk => false

/-- The register an instruction writes, if it writes one (R25). -/
def destination : Instr → Option RegIdx
  | .and rd _ _ => some rd
  | .or rd _ _ => some rd
  | .nor rd _ _ => some rd
  | .xor rd _ _ => some rd
  | .add rd _ _ => some rd
  | .sub rd _ _ => some rd
  | .mul rd _ _ => some rd
  | .div rd _ _ => some rd
  | .lsl rd _ _ => some rd
  | .asr rd _ _ => some rd
  | .lsr rd _ _ => some rd
  | .load rd _ => some rd
  | .loadi rd _ _ _ => some rd
  | .store _ _ => none
  | .jmp _ => none
  | .jmpi _ => none
  | .jmpc _ _ => none
  | .jmpic _ _ => none
  | .brk => none

/-! ### Terms for encodings -/

/-- `w` is the word of `i`, both ways (R110, R118). -/
def Encodes (i : Instr) (w : Word) : Prop := encode i = w ∧ decode w = .ok i

/-- Every word with opcode ALU and function `f` is `i` of the fields at 8:4, 13:9 and 18:14 (format FA, R104). -/
def FormatFA (i : RegIdx → RegIdx → RegIdx → Instr) (f : BitVec 5) : Prop :=
  ∀ w : Word, w.extractLsb' 0 4 = 0 → w.extractLsb' 19 5 = f →
    decode w = .ok (i (w.extractLsb' 4 5) (w.extractLsb' 9 5) (w.extractLsb' 14 5))

/-- Every word with opcode `op` is `i` of the fields at 8:4, 13:9 and 18:14 (format FS, R104). -/
def FormatFS (i : RegIdx → RegIdx → RegIdx → Instr) (op : BitVec 4) : Prop :=
  ∀ w : Word, w.extractLsb' 0 4 = op →
    decode w = .ok (i (w.extractLsb' 4 5) (w.extractLsb' 9 5) (w.extractLsb' 14 5))

/-- Every word with opcode `op` is `i` of the fields at 8:4 and 13:9 (format FM, R104). -/
def FormatFM (i : RegIdx → RegIdx → Instr) (op : BitVec 4) : Prop :=
  ∀ w : Word, w.extractLsb' 0 4 = op → decode w = .ok (i (w.extractLsb' 4 5) (w.extractLsb' 9 5))

/-- The bits that the format of an opcode value draws, the opcode's own among them, by the rows of R104 under the
reference assignment (R111). An unassigned value draws its opcode alone. -/
def usedBits (op : BitVec 4) : Word :=
  if op = 0x0 then 0x00FFFFFF
  else if op = 0x1 ∨ op = 0x2 ∨ op = 0x3 then 0x0007FFFF
  else if op = 0x4 ∨ op = 0x6 then 0x00003FFF
  else if op = 0x5 then 0x7FFFFFFF
  else if op = 0x7 then 0x000001FF
  else if op = 0x8 then 0x0FFFFFFF
  else if op = 0x9 then 0x00001FFF
  else if op = 0xA then 0xFFFFFFFF
  else 0x0000000F

/-! ### How an instruction completes -/

/-- An ALU instruction completes with result `r` in `rd`: Z says `r` is 0, N that it is negative as a signed word
(R140), C and O say `c` and `o`; nothing else changes, no word of RAM among it. -/
def AluCompletes (i : Instr) (s : State) (rd : RegIdx) (r : Word) (c o : Prop) : Prop :=
  ∃ t : State, exec i s = .next t ∧ RegWritten s t rd r ∧
    (t.flags.z = true ↔ r = 0) ∧ (t.flags.n = true ↔ r.toInt < 0) ∧
    (t.flags.c = true ↔ c) ∧ (t.flags.o = true ↔ o) ∧ OnlyRegsFlags s t ∧ SameRam s.mem t.mem

/-- An instruction completes with `r` in `rd` and nothing else changed, no flag and no word of RAM among it. -/
def RegCompletes (i : Instr) (s : State) (rd : RegIdx) (r : Word) : Prop :=
  ∃ t : State, exec i s = .next t ∧ RegWritten s t rd r ∧ OnlyRegs s t ∧ SameRam s.mem t.mem

/-- A jump completes with `target` in the pc and nothing else changed. -/
def JumpCompletes (i : Instr) (s : State) (target : Word) : Prop :=
  ∃ t : State, exec i s = .next t ∧ t.pc = target ∧ OnlyPc s t ∧ SameRam s.mem t.mem

/-- `cond(select)` of R108: some flag is set whose bit of the select field is. -/
def SomeSelectedFlag (f : Flags) (select : BitVec 4) : Prop :=
  (select[0] = true ∧ f.z = true) ∨ (select[1] = true ∧ f.n = true) ∨
    (select[2] = true ∧ f.c = true) ∨ (select[3] = true ∧ f.o = true)

/-- Where each jump, fetched at `s.pc`, sends the pc (R180 to R183): its target, or for a conditional jump that is not
taken the next word. -/
inductive State.JumpsTo (s : State) : Instr → Word → Prop
  | jmp (rs : RegIdx) : s.JumpsTo (.jmp rs) (s.x rs)
  | jmpi (field : BitVec 24) : s.JumpsTo (.jmpi field.toInt) (s.pc + 1 + field.signExtend 32)
  | jmpcTaken (rs : RegIdx) (select : BitVec 4) (h : SomeSelectedFlag s.flags select) :
      s.JumpsTo (.jmpc rs select) (s.x rs)
  | jmpcNotTaken (rs : RegIdx) (select : BitVec 4) (h : ¬ SomeSelectedFlag s.flags select) :
      s.JumpsTo (.jmpc rs select) (s.pc + 1)
  | jmpicTaken (field : BitVec 24) (select : BitVec 4) (h : SomeSelectedFlag s.flags select) :
      s.JumpsTo (.jmpic field.toInt select) (s.pc + 1 + field.signExtend 32)
  | jmpicNotTaken (field : BitVec 24) (select : BitVec 4) (h : ¬ SomeSelectedFlag s.flags select) :
      s.JumpsTo (.jmpic field.toInt select) (s.pc + 1)

/-- The core can fetch the word `w`: mode Running, not in the fault state, `w` at the pc in code memory (R44). -/
abbrev State.Fetches (s : State) (w : Word) : Prop :=
  s.mode = .running ∧ s.fault = none ∧ s.code[s.pc.toNat]? = some w

end Sys2Proof.Machine
end

