-- ==== Sys2Proof/Certificates/Slice0/Obligations.lean ====
section
/-! DEFINITION. The statements for the provers. Each docstring names the rules of spec/ it formalises. -/

open Sys2Proof Sys2Proof.Machine

/-! ### The register file -/

/-- R24 with R22: after `x[r] <- v`, `r` reads `v` until the next write to `r`, whatever other registers are written
meanwhile; registers 0 and 1 read 0 and 1 after any writes at all. -/
def Obligations.RegisterKeepsItsValueUntilTheNextWrite : Prop :=
  ∀ (s : State) (r : RegIdx) (v : Word) (writes : List (RegIdx × Word)),
    (2 ≤ r.toNat → (∀ p ∈ writes, p.1 ≠ r) →
      (writes.foldl (fun u p => u.setX p.1 p.2) (s.setX r v)).x r = v) ∧
    (writes.foldl (fun u p => u.setX p.1 p.2) s).x 0 = 0 ∧
    (writes.foldl (fun u p => u.setX p.1 p.2) s).x 1 = 1

/-- R25 with R200: an instruction changes no register but its destination, in the backing array too; and DIV by zero
changes none. -/
def Obligations.OnlyTheDestinationRegisterChanges : Prop :=
  ∀ (i : Instr) (s t : State), exec i s = .next t →
    (∀ (k : Nat) (h : k < 32), (∀ rd, destination i = some rd → k ≠ rd.toNat) → t.regs[k] = s.regs[k]) ∧
    (∀ rd rs1 rs2, i = .div rd rs1 rs2 → s.x rs2 = 0 → t.regs = s.regs)

/-! ### The ALU -/

/-- R143 to R146: AND, OR, NOR and XOR, encoding, result, flags and frame. -/
def Obligations.LogicFunctionsComputeAndClearCarryAndOverflow : Prop :=
  (FormatFA .and 0 ∧ Encodes (.and 2 3 4) 0x00010620) ∧ (FormatFA .or 1 ∧ Encodes (.or 2 3 4) 0x00090620) ∧
  (FormatFA .nor 2 ∧ Encodes (.nor 2 3 4) 0x00110620) ∧ (FormatFA .xor 3 ∧ Encodes (.xor 2 3 4) 0x00190620) ∧
  ∀ (rd rs1 rs2 : RegIdx) (s : State),
    AluCompletes (.and rd rs1 rs2) s rd (s.x rs1 &&& s.x rs2) False False ∧
    AluCompletes (.or rd rs1 rs2) s rd (s.x rs1 ||| s.x rs2) False False ∧
    AluCompletes (.nor rd rs1 rs2) s rd (~~~(s.x rs1 ||| s.x rs2)) False False ∧
    AluCompletes (.xor rd rs1 rs2) s rd (s.x rs1 ^^^ s.x rs2) False False

/-- R147: ADD, with C and O by the mathematical sums, and O also by the sign bits. -/
def Obligations.AddComputesSumCarryAndOverflow : Prop :=
  (FormatFA .add 4 ∧ Encodes (.add 2 2 2) 0x00208420) ∧
  ∀ (rd rs1 rs2 : RegIdx) (s : State) (a b r : Word), a = s.x rs1 → b = s.x rs2 → r = a + b →
    AluCompletes (.add rd rs1 rs2) s rd r (2 ^ 32 ≤ a.toNat + b.toNat)
      (2 ^ 31 - 1 < a.toInt + b.toInt ∨ a.toInt + b.toInt < -2 ^ 31) ∧
    r.toNat = (a.toNat + b.toNat) % 2 ^ 32 ∧
    ((2 ^ 31 - 1 < a.toInt + b.toInt ∨ a.toInt + b.toInt < -2 ^ 31) ↔ (a[31] = b[31] ∧ r[31] ≠ a[31]))

/-- R148: SUB, rs1 minus rs2; C is the borrow; O by the mathematical difference and also by the sign bits. -/
def Obligations.SubComputesDifferenceBorrowAndOverflow : Prop :=
  (FormatFA .sub 5 ∧ Encodes (.sub 3 4 5) 0x00294830) ∧
  ∀ (rd rs1 rs2 : RegIdx) (s : State) (a b r : Word), a = s.x rs1 → b = s.x rs2 → r = a - b →
    AluCompletes (.sub rd rs1 rs2) s rd r (a.toNat < b.toNat)
      (2 ^ 31 - 1 < a.toInt - b.toInt ∨ a.toInt - b.toInt < -2 ^ 31) ∧
    (r.toNat : Int) = ((a.toNat : Int) - b.toNat) % 2 ^ 32 ∧
    ((2 ^ 31 - 1 < a.toInt - b.toInt ∨ a.toInt - b.toInt < -2 ^ 31) ↔ (a[31] ≠ b[31] ∧ r[31] ≠ a[31]))

/-- R149: MUL, the low word, which is that of the signed product too; C and O by the mathematical products. -/
def Obligations.MulComputesLowWordCarryAndOverflow : Prop :=
  (FormatFA .mul 6 ∧ Encodes (.mul 2 3 4) 0x00310620) ∧
  ∀ (rd rs1 rs2 : RegIdx) (s : State) (a b r : Word), a = s.x rs1 → b = s.x rs2 →
    r = BitVec.ofNat 32 (a.toNat * b.toNat) →
    AluCompletes (.mul rd rs1 rs2) s rd r (2 ^ 32 ≤ a.toNat * b.toNat)
      (2 ^ 31 - 1 < a.toInt * b.toInt ∨ a.toInt * b.toInt < -2 ^ 31) ∧
    r = BitVec.ofInt 32 (a.toInt * b.toInt)

/-- R150 with R203, R200 and R36: DIV is unsigned and truncating; a zero divisor enters the fault state with
DivisionByZero at the instruction's address, `rd` not written, and nothing but the flags (unspecified) changed beside
it. That entering the fault state is a next state with the record in `fault` is the model's form, log entry 6; that the
instruction's address is `pc - 1` is read from R36 and R44, log entry 11. -/
def Obligations.DivComputesQuotientOrFaults : Prop :=
  (FormatFA .div 7 ∧ Encodes (.div 2 3 4) 0x00390620) ∧
  ∀ (rd rs1 rs2 : RegIdx) (s : State) (a b : Word), a = s.x rs1 → b = s.x rs2 →
    (b ≠ 0 → AluCompletes (.div rd rs1 rs2) s rd (BitVec.ofNat 32 (a.toNat / b.toNat)) False False) ∧
    (b = 0 → ∃ t : State, exec (.div rd rs1 rs2) s = .next t ∧
      t = { s with flags := t.flags, fault := some ⟨.divisionByZero, s.pc - 1⟩ })

/-- R29: an instruction other than JMPC and JMPIC does the same whatever the flags hold before it, but for flags it
leaves as they are. R28: an ALU instruction that does not fault (any but DIV by zero, after which R200 leaves the flags
unspecified) recomputes the whole flag vector; no other instruction touches it. -/
def Obligations.FlagsAreWrittenByAluAndReadByConditionalJumps : Prop :=
  (∀ (i : Instr) (s t : State) (f : Flags), (∀ rs select, i ≠ .jmpc rs select) →
    (∀ offset select, i ≠ .jmpic offset select) → exec i s = .next t →
    ∃ t' : State, exec i { s with flags := f } = .next t' ∧ { t' with flags := t.flags } = t ∧
      (isAlu i = true → (∀ rd rs1 rs2, i = .div rd rs1 rs2 → s.x rs2 ≠ 0) → t' = t) ∧ (isAlu i = false → t'.flags = f)) ∧
  (∀ (i : Instr) (s t : State), isAlu i = false → exec i s = .next t → t.flags = s.flags)

/-! ### Shifts -/

/-- R160 to R163: the amount is the low 5 bits of `x[rs2]`; LSL multiplies modulo 2^32, ASR and LSR divide the signed
and the unsigned value by a power of two, rounding down; no flag and nothing else changes. -/
def Obligations.ShiftsScaleByPowersOfTwo : Prop :=
  (FormatFS .lsl 1 ∧ Encodes (.lsl 2 3 4) 0x00010621) ∧ (FormatFS .asr 2 ∧ Encodes (.asr 2 3 4) 0x00010622) ∧
  (FormatFS .lsr 3 ∧ Encodes (.lsr 2 3 4) 0x00010623) ∧
  ∀ (rd rs1 rs2 : RegIdx) (s : State) (a : Word) (k : Nat), a = s.x rs1 → k = (s.x rs2).toNat % 32 →
    (∃ r : Word, RegCompletes (.lsl rd rs1 rs2) s rd r ∧ r.toNat = a.toNat * 2 ^ k % 2 ^ 32) ∧
    (∃ r : Word, RegCompletes (.asr rd rs1 rs2) s rd r ∧ r.toInt = a.toInt / 2 ^ k) ∧
    (∃ r : Word, RegCompletes (.lsr rd rs1 rs2) s rd r ∧ r.toNat = a.toNat / 2 ^ k)

/-! ### RAM, LOAD, LOADI, STORE -/

/-- R62 and R64 on the memory subsystem: the word written reads back and is marked written; a word that is neither it
nor one of the snapshot's words (1026 to 1033, on a non-zero write to 1025) reads as before and is as written as
before; and in canonical RAM a never-written word reads 0. -/
def Obligations.MemWriteThenMemRead : Prop :=
  ∀ (m : Memory) (a v b : Word),
    (m.write a v).read a = v ∧ (m.write a v).isWritten a = true ∧
    (b ≠ a → ¬ (a = 1025 ∧ v ≠ 0 ∧ 1026 ≤ b.toNat ∧ b.toNat ≤ 1033) →
      (m.write a v).read b = m.read b ∧ (m.write a v).isWritten b = m.isWritten b) ∧
    (m.wf → m.isWritten b = false → m.read b = 0)

/-- R170: LOAD puts the RAM word at `x[rs]` in `rd`; the diagnostic is emitted exactly for a never-written address,
which in canonical RAM reads 0; no RAM word, flag or other register changes. -/
def Obligations.LoadReadsTheAddressedWord : Prop :=
  (FormatFM .load 4 ∧ Encodes (.load 2 3) 0x00000624) ∧
  ∀ (rd rs : RegIdx) (s : State) (a : Word), a = s.x rs →
    ∃ t : State, exec (.load rd rs) s = .next t ∧ RegWritten s t rd (s.mem.read a) ∧
      (s.mem.isWritten a = true → t.diags = s.diags) ∧
      (s.mem.isWritten a = false → t.diags = s.diags ++ [.uninitializedRead a]) ∧
      (s.mem.wf → s.mem.isWritten a = false → s.mem.read a = 0) ∧
      t = { s with regs := t.regs, diags := t.diags, mem := { s.mem with extent := t.mem.extent } } ∧
      SameRam s.mem t.mem

/-- R171 with R107: LOADI adds the zero-extended immediate to `x[rs]`, shifted left by 16 for the high half, modulo
2^32; it touches no flag. -/
def Obligations.LoadiAddsTheImmediate : Prop :=
  (∀ w : Word, w.extractLsb' 0 4 = 5 →
    decode w = .ok (.loadi (w.extractLsb' 4 5) (w.extractLsb' 9 5) (w.extractLsb' 14 16) w[30])) ∧
  (Encodes (.loadi 2 0 5 true) 0x40014025 ∧ Encodes (.loadi 2 0 0xABCD false) 0x2AF34025) ∧
  ∀ (rd rs : RegIdx) (imm : BitVec 16) (s : State),
    RegCompletes (.loadi rd rs imm true) s rd (BitVec.ofNat 32 ((s.x rs).toNat + imm.toNat)) ∧
    RegCompletes (.loadi rd rs imm false) s rd (BitVec.ofNat 32 ((s.x rs).toNat + imm.toNat * 2 ^ 16))

/-- R120: the idiom of two LOADIs builds any 32-bit constant in any register that is not hard-wired. -/
def Obligations.LoadiIdiomBuildsAnyConstant : Prop :=
  ∀ (s : State) (rd : RegIdx) (k : Word), 2 ≤ rd.toNat →
    ∃ t u : State, exec (.loadi rd 0 (k.extractLsb' 16 16) false) s = .next t ∧
      exec (.loadi rd rd (k.extractLsb' 0 16) true) t = .next u ∧ u.x rd = k ∧
      (∀ r : RegIdx, r ≠ rd → u.x r = s.x r) ∧ OnlyRegs s u

/-- R172 for every store that takes no snapshot: the word at `x[rd]` becomes `x[rs]` and is marked written; every other
word reads as before; no register, flag or code word changes. The clock inputs left alone are the model's own fields,
log entry 5. -/
def Obligations.StoreWritesTheAddressedWord : Prop :=
  (FormatFM .store 6 ∧ Encodes (.store 3 2) 0x00000436) ∧
  ∀ (rd rs : RegIdx) (s : State) (a v : Word), a = s.x rd → v = s.x rs → (a ≠ 1025 ∨ v = 0) →
    ∃ t : State, exec (.store rd rs) s = .next t ∧ t = { s with mem := t.mem } ∧
      t.mem.read a = v ∧ t.mem.isWritten a = true ∧
      (∀ b : Word, b ≠ a → t.mem.read b = s.mem.read b ∧ t.mem.isWritten b = s.mem.isWritten b) ∧
      t.mem.rtcInputs = s.mem.rtcInputs ∧ t.mem.rtcDraws = s.mem.rtcDraws

/-- R77 with R172: a store of a non-zero value to 1025 stores it and then stores the snapshot the environment draws at
1026 to 1033, in the fixed order; the seconds are below 60; every other word reads as before. That a snapshot comes
from the state's queue of inputs when one is ready is the model's form of R77's draw, log entry 5. -/
def Obligations.StoreToTheTriggerTakesASnapshot : Prop :=
  ∀ (rd rs : RegIdx) (s : State) (v : Word), s.x rd = 1025 → v = s.x rs → v ≠ 0 →
    ∃ (t : State) (n : Snapshot), exec (.store rd rs) s = .next t ∧ t = { s with mem := t.mem } ∧
      (∀ n' rest, s.mem.rtcInputs = n' :: rest → n = n' ∧ t.mem.rtcInputs = rest) ∧
      t.mem.read 1025 = v ∧ (t.mem.read 1026).toNat = n.sec.val ∧ n.sec.val < 60 ∧
      t.mem.read 1027 = n.min ∧ t.mem.read 1028 = n.hour ∧ t.mem.read 1029 = n.mday ∧ t.mem.read 1030 = n.mon ∧
      t.mem.read 1031 = n.year ∧ t.mem.read 1032 = n.wday ∧ t.mem.read 1033 = n.extra ∧
      (∀ b : Word, 1025 ≤ b.toNat → b.toNat ≤ 1033 → t.mem.isWritten b = true) ∧
      (∀ b : Word, ¬ (1025 ≤ b.toNat ∧ b.toNat ≤ 1033) →
        t.mem.read b = s.mem.read b ∧ t.mem.isWritten b = s.mem.isWritten b)

/-- R77 and R79 with the open parameters of R6: whatever `RTC_MONTH_BASE` and `RTC_WDAY_ENC` are, a snapshot that the
environment takes of a clock time puts the seconds mod 60 at 1026, the minute, hour and day as they are, the month
counted from the base at 1030, the year plus 1900 at 1031 and the weekday's number at 1032. The queue the snapshot
comes from is the model's form of R77's draw, log entry 5, and so are the terms of a clock time, log entry 20. -/
def Obligations.SnapshotFollowsTheClockEncodings : Prop :=
  ∀ (e : RtcEncoding) (c : ClockTime) (rest : List Snapshot) (rd rs : RegIdx) (s : State),
    s.x rd = 1025 → s.x rs ≠ 0 → s.mem.rtcInputs = Snapshot.ofClock e c :: rest →
    ∃ t : State, exec (.store rd rs) s = .next t ∧ t.mem.rtcInputs = rest ∧
      (t.mem.read 1026).toNat = c.seconds % 60 ∧ t.mem.read 1027 = c.minute ∧ t.mem.read 1028 = c.hour ∧
      t.mem.read 1029 = c.mday ∧ (t.mem.read 1030).toNat = e.monthBase.val + c.month.val ∧
      t.mem.read 1031 = c.year + 1900 ∧ t.mem.read 1032 = e.weekday c.weekday ∧ t.mem.read 1033 = c.extra

/-- R78: writing 0 to 1025 stores 0 there and takes no snapshot: 1026 to 1033 keep their values, and no clock input is
drawn (the inputs and the count of draws are the model's own fields, log entry 5). -/
def Obligations.ZeroToTheTriggerTakesNoSnapshot : Prop :=
  ∀ m : Memory, (m.write 1025 0).read 1025 = 0 ∧
    (∀ b : Word, 1026 ≤ b.toNat → b.toNat ≤ 1033 → (m.write 1025 0).read b = m.read b) ∧
    (m.write 1025 0).rtcInputs = m.rtcInputs ∧ (m.write 1025 0).rtcDraws = m.rtcDraws

/-- R63: a step never takes an address out of `written`. -/
def Obligations.WrittenAddressesStayWritten : Prop :=
  ∀ (s t : State) (a : Word), step s = .next t → s.mem.isWritten a = true → t.mem.isWritten a = true

/-- R65: after LOAD or STORE at `a`, every RAM buffer the host can be given holds more than `a` words, such a buffer
exists, and its words are those RAM reads; it holds every word ever written; and what it had to reach before any number
of steps, it has to reach after them. Which buffers the host can be given is the model's relation, log entry 13. -/
def Obligations.RamBufferReachesEveryAccessedAddress : Prop :=
  (∀ (s t : State) (n : Nat) (l : List Word), core.run n s = .next t → t.IsRamBuffer l → s.mem.extent ≤ l.length) ∧
  ∀ (s t : State) (rd rs : RegIdx) (a : Word), s.mem.wf →
    (∀ (l : List Word) (b : Word), s.IsRamBuffer l → s.mem.isWritten b = true → b.toNat + 1 ≤ l.length) ∧
    (((exec (.load rd rs) s = .next t ∧ a = s.x rs) ∨ (exec (.store rd rs) s = .next t ∧ a = s.x rd)) →
      (∃ l : List Word, t.IsRamBuffer l) ∧
      ∀ l : List Word, t.IsRamBuffer l → a.toNat + 1 ≤ l.length ∧ l[a.toNat]? = some (t.mem.read a))

/-! ### Jumps -/

/-- R180 to R183 and R108: the four jumps, encodings, targets, the select test, and the frame. `s.pc` is the address
after the jump (R36). -/
def Obligations.JumpsSetThePcWhenTaken : Prop :=
  (∀ w : Word, w.extractLsb' 0 4 = 7 → decode w = .ok (.jmp (w.extractLsb' 4 5))) ∧
  (∀ w : Word, w.extractLsb' 0 4 = 8 → decode w = .ok (.jmpi (w.extractLsb' 4 24).toInt)) ∧
  (∀ w : Word, w.extractLsb' 0 4 = 9 → decode w = .ok (.jmpc (w.extractLsb' 4 5) (w.extractLsb' 9 4))) ∧
  (∀ w : Word, w.extractLsb' 0 4 = 10 →
    decode w = .ok (.jmpic (w.extractLsb' 4 24).toInt (w.extractLsb' 28 4))) ∧
  (Encodes (.jmp 5) 0x00000057 ∧ Encodes (.jmpi (-1)) 0x0FFFFFF8 ∧ Encodes (.jmpi 3) 0x00000038 ∧
    Encodes (.jmpc 5 0b0101) 0x00000A59 ∧ Encodes (.jmpic (-4) 0b0001) 0x1FFFFFCA ∧
    Encodes (.jmpic 1 0b0001) 0x1000001A) ∧
  ∀ (rs : RegIdx) (field : BitVec 24) (select : BitVec 4) (s : State),
    JumpCompletes (.jmp rs) s (s.x rs) ∧
    JumpCompletes (.jmpi field.toInt) s (s.pc + field.signExtend 32) ∧
    (SomeSelectedFlag s.flags select →
      JumpCompletes (.jmpc rs select) s (s.x rs) ∧
      JumpCompletes (.jmpic field.toInt select) s (s.pc + field.signExtend 32)) ∧
    (¬ SomeSelectedFlag s.flags select →
      JumpCompletes (.jmpc rs select) s s.pc ∧ JumpCompletes (.jmpic field.toInt select) s s.pc)

/-- R46, R44, R38 and R180 to R184, for each of the four jumps, taken or not: a jump that sends the pc to CODE_LEN halts
in its own step; one that sends it beyond CODE_LEN leaves the core running, and the next step enters the fault state
with PcOutOfBounds and that pc. -/
def Obligations.JumpTargetsAreCheckedAtTheNextFetch : Prop :=
  ∀ (s : State) (i : Instr) (target : Word), s.JumpsTo i target → s.Fetches (encode i) →
    ∃ t : State, step s = .next t ∧ t.pc = target ∧ t.code = s.code ∧
      (target.toNat = s.code.length → t.mode = .halted) ∧
      (target.toNat < s.code.length → t.mode = .running) ∧
      (s.code.length < target.toNat → t.mode = .running ∧ t.fault = none ∧
        ∃ u : State, step t = .next u ∧ u.fault = some ⟨.pcOutOfBounds, target⟩)

/-- R49 with R181: `JMPI -1` loops forever. However many steps run, the core runs on, without a fault, at the jump. -/
def Obligations.SelfJumpLoopsForever : Prop :=
  ∀ s : State, s.Fetches (encode (.jmpi (-1))) →
    RunsSafely s ∧ ∀ (n : Nat) (t : State), core.run n s = .next t →
      t.mode = .running ∧ t.pc = s.pc ∧ t.code = s.code ∧ t.regs = s.regs ∧ t.flags = s.flags

/-! ### BREAK and the Breakpoint Manager -/

/-- R190 and R204: BREAK with an enabled record puts the pc back, reports the hit, restores the saved word, disables
the record and raises `at_breakpoint`; without one it enters the fault state with BreakWithoutRecord. No register,
flag or RAM word changes. The fault as a next state is log entry 6, the address `pc - 1` log entry 11. -/
def Obligations.BreakRestoresTheWordOrFaults : Prop :=
  (∀ w : Word, w.extractLsb' 0 4 = 0xB → decode w = .ok .brk) ∧ Encodes .brk 0x0000000B ∧
  ∀ (s : State) (a : Word), a = s.pc - 1 →
    (∀ saved : Word, s.breakpointAt a = some ⟨saved, true⟩ →
      ∃ t : State, exec .brk s = .next t ∧ t.breakpointAt a = some ⟨saved, false⟩ ∧
        (∀ b : Word, b ≠ a → t.breakpointAt b = s.breakpointAt b) ∧
        t = { s with
          pc := a, diags := s.diags ++ [.breakpointHit a], code := s.code.set a.toNat saved,
          breakpoints := t.breakpoints, atBreakpoint := true }) ∧
    ((∀ saved : Word, s.breakpointAt a ≠ some ⟨saved, true⟩) →
      exec .brk s = .next { s with
        pc := a, diags := s.diags ++ [.breakpointHit a], fault := some ⟨.breakWithoutRecord, a⟩ })

/-- R116, for every assignment of opcodes: the sentinel word is `OPC(BREAK)` in bits 3:0 with bits 31:4 zero, 0x0000000B
under the reference assignment; it is what `add` writes into code memory; and any word whose bits 3:0 equal `OPC(BREAK)`
decodes as BREAK. -/
def Obligations.SentinelIsTheBreakOpcode : Prop :=
  sentinelWord .reference = 0x0000000B ∧
  ∀ e : OpcodeMap, e.WellFormed →
    (sentinelWord e).extractLsb' 0 4 = e.opc .brk ∧ (sentinelWord e).extractLsb' 4 28 = 0 ∧
    (∀ (s : State) (a : Word), a.toNat < s.code.length → s.breakpointAt a = none →
      (s.addBreakpoint e a).code[a.toNat]? = some (sentinelWord e)) ∧
    ∀ w : Word, w.extractLsb' 0 4 = e.opc .brk → decodeWith e w = .ok .brk

/-- R223: `add`, in each of its cases, under every assignment of opcodes. -/
def Obligations.AddBreakpointPatchesOnce : Prop :=
  ∀ (e : OpcodeMap) (s : State) (a : Word),
    (s.code.length ≤ a.toNat → s.addBreakpoint e a = s) ∧
    (∀ saved : Word, s.breakpointAt a = some ⟨saved, true⟩ → s.addBreakpoint e a = s) ∧
    (∀ w saved : Word, s.code[a.toNat]? = some w →
      (s.breakpointAt a = none ∨ s.breakpointAt a = some ⟨saved, false⟩) →
      (s.addBreakpoint e a).code = s.code.set a.toNat (sentinelWord e) ∧
      (s.addBreakpoint e a).breakpointAt a = some ⟨if s.breakpointAt a = none then w else saved, true⟩ ∧
      (∀ b : Word, b ≠ a → (s.addBreakpoint e a).breakpointAt b = s.breakpointAt b) ∧
      s.addBreakpoint e a = { s with
        code := (s.addBreakpoint e a).code, breakpoints := (s.addBreakpoint e a).breakpoints })

/-- R225: `remove`, in each of its cases: an enabled record's word is restored and the record deleted, a disabled record
is deleted, and where there is no record nothing happens. -/
def Obligations.RemoveBreakpointRestoresAndDeletes : Prop :=
  ∀ (s : State) (a : Word),
    (s.breakpointAt a = none → s.removeBreakpoint a = s) ∧
    ∀ (saved : Word) (on : Bool), s.breakpointAt a = some ⟨saved, on⟩ →
      (s.removeBreakpoint a).code = (if on then s.code.set a.toNat saved else s.code) ∧
      (s.removeBreakpoint a).breakpointAt a = none ∧
      (∀ b : Word, b ≠ a → (s.removeBreakpoint a).breakpointAt b = s.breakpointAt b) ∧
      s.removeBreakpoint a = { s with
        code := (s.removeBreakpoint a).code, breakpoints := (s.removeBreakpoint a).breakpoints }

/-- R225 and R227: in a core that keeps the invariant, `remove` after `add` gives back the very state there was before,
and `remove` where there is no record changes nothing. -/
def Obligations.RemoveUndoesAdd : Prop :=
  ∀ (e : OpcodeMap) (s : State) (a : Word), s.Inv e → s.breakpointAt a = none →
    (s.addBreakpoint e a).removeBreakpoint a = s ∧ s.removeBreakpoint a = s

/-- The breakpoint round trip of S6 (R223 to R227, R190), under every assignment of opcodes: after `add` at the pc, the
next step stops there with the original code back and the hit reported; `remove` then leaves the original code, and
without it the step after runs the original word. -/
def Obligations.BreakpointSessionRoundTrip : Prop :=
  ∀ (e : OpcodeMap) (s : State) (w : Word), e.WellFormed → s.Inv e → s.Fetches w → s.breakpointAt s.pc = none →
    (s.addBreakpoint e s.pc).code[s.pc.toNat]? = some (sentinelWord e) ∧
    ∃ t : State, stepWith e (s.addBreakpoint e s.pc) = .next t ∧ t.pc = s.pc ∧ t.atBreakpoint = true ∧
      t.runEnd = .suspended ∧ t.diags = s.diags ++ [.breakpointHit s.pc] ∧ t.code = s.code ∧
      t.breakpointAt s.pc = some ⟨w, false⟩ ∧ (t.removeBreakpoint s.pc).code = s.code ∧
      (t.removeBreakpoint s.pc).breakpoints = s.breakpoints ∧
      t.Fetches w ∧ stepWith e t = runWordWith e w t.beginStep.advance

/-- R226: an answer of `list()` names an address as enabled exactly where an enabled record stands, and as disabled
exactly where a disabled one stands, each once. Which orders an answer can have is the model's relation, log entry
14. -/
def Obligations.ListingNamesEveryRecordOnce : Prop :=
  ∀ (e : OpcodeMap) (s : State) (l : List (Nat × Bool)), s.Inv e → s.IsBreakpointListing l →
    l.Nodup ∧ ∀ (a : Word) (on : Bool),
      (a.toNat, on) ∈ l ↔ ∃ saved : Word, s.breakpointAt a = some ⟨saved, on⟩

/-! ### Decoding and encoding -/

/-- R118: decoding inverts encoding, for every assignment of opcodes and functions and every well-formed
instruction. -/
def Obligations.DecodeInvertsEncode : Prop :=
  ∀ (e : OpcodeMap) (i : Instr), e.WellFormed → i.WellFormed → decodeWith e (encodeWith e i) = .ok i

/-- R110 and R118: what decodes is well-formed, and encoding it gives the word back with its unused bits zero. -/
def Obligations.EncodeInvertsDecodeOnUsedBits : Prop :=
  ∀ (w : Word) (i : Instr), decode w = .ok i →
    i.WellFormed ∧ encode i = w &&& usedBits (w.extractLsb' 0 4)

/-- R115: bits that no draw of the format reaches have no effect on decoding, and an encoder writes 0 in them. -/
def Obligations.UnusedBitsHaveNoEffect : Prop :=
  (∀ w w' : Word, w &&& usedBits (w.extractLsb' 0 4) = w' &&& usedBits (w.extractLsb' 0 4) →
    decode w' = decode w) ∧
  (∀ i : Instr, encode i &&& ~~~usedBits ((encode i).extractLsb' 0 4) = 0) ∧
  decode 0x00208420 = .ok (.add 2 2 2) ∧ decode 0xFF208420 = .ok (.add 2 2 2)

/-- R110 with R113 and R114: a word is refused exactly for an opcode of 0xC to 0xF, or for opcode ALU with a function
of 8 to 31, each by its name. -/
def Obligations.DecodeRefusesExactlyTheUnassigned : Prop :=
  ∀ w : Word,
    (∀ op : BitVec 4, decode w = .error (.unknownOpcode op) ↔ (op = w.extractLsb' 0 4 ∧ 12 ≤ op.toNat)) ∧
    (∀ f : BitVec 5, decode w = .error (.unknownAluFunc f) ↔
      (w.extractLsb' 0 4 = 0 ∧ f = w.extractLsb' 19 5 ∧ 8 ≤ f.toNat))

/-- The words of 95_test_vectors.md section 2.1, one of each format, decode to the instructions that stand beside
them. -/
def Obligations.VectorWordsDecode : Prop :=
  decode 0x00208420 = .ok (.add 2 2 2) ∧ decode 0x00010621 = .ok (.lsl 2 3 4) ∧
  decode 0x00000624 = .ok (.load 2 3) ∧ decode 0xFFFFFFF5 = .ok (.loadi 31 31 0xFFFF true) ∧
  decode 0xFFFFFFF7 = .ok (.jmp 31) ∧ decode 0x08000008 = .ok (.jmpi (-8388608)) ∧
  decode 0x00001FF9 = .ok (.jmpc 31 0b1111) ∧ decode 0x1FFFFFCA = .ok (.jmpic (-4) 0b0001) ∧
  decode 0xFFFFFFFB = .ok .brk ∧ decode 0x0000000C = .error (.unknownOpcode 0xC)

/-! ### The step -/

/-- R44 and R46: a core that fetches a word which decodes to `i` runs `exec i` with the start of the step done (the
breakpoint flag cleared, the tick written) and the pc advanced; then comes the halt test. -/
def Obligations.StepRunsTheDecodedInstruction : Prop :=
  ∀ (s : State) (w : Word) (i : Instr), s.Fetches w → decode w = .ok i →
    ∃ t : State, exec i s.beginStep.advance = .next t ∧ step s = .next t.endStep ∧
      s.beginStep.advance.pc = s.pc + 1 ∧ s.beginStep.advance.atBreakpoint = false

/-- Every instruction has a meaning: `exec` answers a next state for every instruction and every state. -/
def Obligations.EveryInstructionAnswersANextState : Prop :=
  ∀ (i : Instr) (s : State), ∃ t : State, exec i s = .next t

/-- R45: a step in mode Halted changes nothing. -/
def Obligations.HaltedStepChangesNothing : Prop :=
  ∀ s : State, s.mode = .halted → s.fault = none → ∀ n : Nat, core.run n s = .next s

/-- R200: in the fault state no step exists; anywhere else a step has a next state. That the missing step is a stop
with a fault that names the record, and that entering the fault state is a next state, is the model's form, log
entry 6. -/
def Obligations.OnlyTheFaultStateStops : Prop :=
  ∀ s : State, (∀ r : FaultRecord, s.fault = some r → ∀ n : Nat, core.run (n + 1) s = .fault (.inFaultState r)) ∧
    (s.fault = none → ∃ t : State, step s = .next t)

/-- R201 and R209: with the pc out of the code's bounds, a running step writes the tick if it is due and then enters
the fault state with the pc recorded; nothing else changes but the bookkeeping of the step's start. -/
def Obligations.PcOutOfBoundsIsFatal : Prop :=
  ∀ s : State, s.mode = .running → s.fault = none → s.code.length ≤ s.pc.toNat →
    ∃ t : State, step s = .next t ∧ t.fault = some ⟨.pcOutOfBounds, s.pc⟩ ∧ t.pc = s.pc ∧ t.mode = .running ∧
      t.regs = s.regs ∧ t.flags = s.flags ∧ t.code = s.code ∧ t.breakpoints = s.breakpoints ∧ t.diags = s.diags ∧
      (s.tickNow = true → t.mem.read 1024 = 1 ∧ t.mem.isWritten 1024 = true) ∧
      (s.tickNow = false → t.mem = s.mem) ∧
      (∀ b : Word, b ≠ 1024 → t.mem.read b = s.mem.read b ∧ t.mem.isWritten b = s.mem.isWritten b)

/-- R113, R114, R202: a fetched word of an unassigned opcode, or of opcode ALU with an unassigned function, enters the
fault state with the instruction's address and the offending field; the pc's advance stays; no register or code word
changes; the flags change at most for the function. -/
def Obligations.UnassignedEncodingsAreFatal : Prop :=
  ∀ (s : State) (w : Word), s.Fetches w →
    (12 ≤ (w.extractLsb' 0 4).toNat →
      ∃ t : State, step s = .next t ∧ t.fault = some ⟨.unknownOpcode (w.extractLsb' 0 4), s.pc⟩ ∧
        t = { s.beginStep with pc := s.pc + 1, fault := t.fault }) ∧
    (w.extractLsb' 0 4 = 0 → 8 ≤ (w.extractLsb' 19 5).toNat →
      ∃ t : State, step s = .next t ∧ t.fault = some ⟨.unknownAluFunc (w.extractLsb' 19 5), s.pc⟩ ∧
        t = { s.beginStep with pc := s.pc + 1, fault := t.fault, flags := t.flags })

/-- R200: a step that enters the fault state leaves registers, code memory and the breakpoint table as they were, and
RAM as the tick write left it. -/
def Obligations.EnteringTheFaultStateWritesNothingElse : Prop :=
  ∀ (s t : State), s.fault = none → step s = .next t → t.fault ≠ none →
    t.regs = s.regs ∧ t.code = s.code ∧ t.breakpoints = s.breakpoints ∧ t.mem = s.beginStep.mem ∧
    t.mode = .running

/-- R75, R74 and R82: a due tick stores 1 at 1024 before the instruction: a LOAD from 1024 in the same step reads 1, a
STORE of `v` there leaves `v`, and an instruction that stores nothing leaves 1. With no tick due, the word at 1024
changes only by the instruction. `tickNow` is the model's form of R75's draw, log entry 4. -/
def Obligations.TickIsWrittenBeforeTheInstruction : Prop :=
  ∀ (s : State) (rd rs : RegIdx),
    (s.beginStep.mem.read 1024 = if s.tickNow then 1 else s.mem.read 1024) ∧
    (∀ b : Word, b ≠ 1024 → s.beginStep.mem.read b = s.mem.read b) ∧
    (s.Fetches (encode (.load rd rs)) → s.x rs = 1024 → s.tickNow = true → 2 ≤ rd.toNat →
      ∃ t : State, step s = .next t ∧ t.x rd = 1 ∧ t.mem.read 1024 = 1) ∧
    (s.Fetches (encode (.store rd rs)) → s.x rd = 1024 →
      ∃ t : State, step s = .next t ∧ t.mem.read 1024 = s.x rs) ∧
    (∀ offset : Int, offsetInRange offset → s.Fetches (encode (.jmpi offset)) →
      ∃ t : State, step s = .next t ∧ t.mem = s.beginStep.mem)

/-- R46 and R41: a running step ends Halted exactly when it has not faulted and the pc is CODE_LEN; and Halted never
goes back to Running. -/
def Obligations.HaltsExactlyAtCodeLen : Prop :=
  ∀ s t : State, s.fault = none → step s = .next t →
    (s.mode = .running → (t.mode = .halted ↔ t.fault = none ∧ t.pc.toNat = t.code.length)) ∧
    (s.mode = .halted → t.mode = .halted)

/-- R32 and R34: no instruction changes code memory, except that BREAK puts one word back at its own address; CODE_LEN
never changes. -/
def Obligations.OnlyBreakWritesCodeMemory : Prop :=
  ∀ s t : State, step s = .next t →
    t.code.length = s.code.length ∧
    (∀ w : Word, s.code[s.pc.toNat]? = some w → w.extractLsb' 0 4 ≠ 0xB → t.code = s.code) ∧
    (∀ k : Nat, k ≠ s.pc.toNat → t.code[k]? = s.code[k]?)

/-- R48: `execute()` under any assignment of opcodes, given `n` steps, answers the state after the first `k` of them at which it should stop (Halted,
at a breakpoint, in the fault state), taking at least one step, or the state after all `n`; it stops at none before.
That a model of `execute()` is given a number of steps is log entry 12. -/
def Obligations.ExecuteStopsOnlyWhereItShould : Prop :=
  ∀ (e : OpcodeMap) (n : Nat) (s t : State), executeFor e n s = .next t →
    ∃ k : Nat, k ≤ n ∧ (coreWith e).run k s = .next t ∧ (0 < n → 0 < k) ∧ (t.stopsExecute = true ∨ k = n) ∧
      ∀ (j : Nat) (u : State), 0 < j → j < k → (coreWith e).run j s = .next u → u.stopsExecute = false

/-! ### Reset and loading -/

/-- R240: what reset leaves, for the values the spec gives; registers 0 and 1 read 0 and 1. -/
def Obligations.ResetStateIsAsStated : Prop :=
  State.reset.mode = .running ∧ State.reset.pc = 0 ∧ State.reset.atBreakpoint = false ∧
  State.reset.breakpoints = [] ∧ State.reset.fault = none ∧ State.reset.x 0 = 0 ∧ State.reset.x 1 = 1 ∧
  ∀ a : Word, State.reset.mem.read a = 0 ∧ State.reset.mem.isWritten a = false

/-- R242: a program file of 4n bytes loads as n little-endian words, CODE_LEN is n; any other length, and a file that
cannot be read, is MalformedInputFile, and no core is built, with or without a RAM file. -/
def Obligations.ProgramFileLoadsLittleEndian : Prop :=
  (∀ (file : InputFile) (ramFile : Option InputFile), file.Malformed →
    State.construct file ramFile = .fault .malformedInputFile) ∧
  ∀ bytes : List Byte,
    (bytes.length % 4 ≠ 0 → State.construct (.contents bytes) none = .fault .malformedInputFile) ∧
    (bytes.length % 4 = 0 → ∃ s : State, State.construct (.contents bytes) none = .next s ∧
      s = { State.reset with code := s.code } ∧ s.code.length = bytes.length / 4 ∧
      ∀ (k : Nat) (h : k < s.code.length) (h' : 4 * k + 3 < bytes.length),
        (s.code[k]).toNat = bytes[4 * k].toNat + 2 ^ 8 * bytes[4 * k + 1].toNat +
          2 ^ 16 * bytes[4 * k + 2].toNat + 2 ^ 24 * bytes[4 * k + 3].toNat)

/-- R243 with R206: a RAM file that cannot be read or whose length is no multiple of 4 is MalformedInputFile, and no core
is built, whatever the program file. Otherwise word k of the RAM file is RAM word k, exactly the file's addresses are written, every other word reads 0, and
no snapshot is taken (the draws and inputs that say so are the model's own fields, log entry 5). A longer file is log
entry 17. -/
def Obligations.RamFileLoadsFromAddressZero : Prop :=
  (∀ program file : InputFile, file.Malformed →
    State.construct program (some file) = .fault .malformedInputFile) ∧
  ∀ (bytes : List Byte) (ws : List Word) (program : List Byte) (code : List Word),
    wordsOfBytes bytes = some ws → wordsOfBytes program = some code → ws.length ≤ 2 ^ 32 →
    ∃ s : State, State.construct (.contents program) (some (.contents bytes)) = .next s ∧ s.code = code ∧
      (∀ (k : Nat) (h : k < ws.length), s.mem.read (BitVec.ofNat 32 k) = ws[k]) ∧
      (∀ a : Word, ws.length ≤ a.toNat → s.mem.read a = 0) ∧
      (∀ a : Word, s.mem.isWritten a = true ↔ a.toNat < ws.length) ∧
      s.mem.rtcDraws = 0 ∧ s.mem.rtcInputs = []

/-- R241: with no program the core starts Running with pc 0, and its first step is fatal, PcOutOfBounds at 0. The stop
after it is the model's form of R200, log entry 6. -/
def Obligations.EmptyProgramFaultsAtTheFirstStep : Prop :=
  State.reset.mode = .running ∧ State.reset.pc = 0 ∧ ∃ t : State, step State.reset = .next t ∧ t.fault = some ⟨.pcOutOfBounds, 0⟩ ∧
    ∀ n : Nat, core.run (n + 2) State.reset = .fault (.inFaultState ⟨.pcOutOfBounds, 0⟩)

/-! ### Invariants and what no program can see -/

/-- Under every assignment of opcodes, the invariant of the core (RAM canonical; R227 for breakpoints and code; R41, R190, R200 for the modes) is kept by
every step. -/
def Obligations.StepKeepsTheInvariant : Prop :=
  ∀ (e : OpcodeMap) (s t : State), s.Inv e → stepWith e s = .next t → t.Inv e

/-- The state after reset satisfies the invariant. -/
def Obligations.ResetSatisfiesTheInvariant : Prop := ∀ e : OpcodeMap, State.reset.Inv e

/-- Every constructed core satisfies the invariant, whatever the program file and the RAM file. -/
def Obligations.ConstructedCoresSatisfyTheInvariant : Prop :=
  ∀ (e : OpcodeMap) (program : InputFile) (ramFile : Option InputFile) (s : State),
    State.construct program ramFile = .next s → s.Inv e

/-- The host's operations keep the invariant (R222 to R227, R230). -/
def Obligations.HostOperationsKeepTheInvariant : Prop :=
  ∀ (e : OpcodeMap) (s : State) (a v : Word) (r : RegIdx), s.Inv e →
    (s.addBreakpoint e a).Inv e ∧ (s.removeBreakpoint a).Inv e ∧ (s.regSet r v).Inv e

/-- R22, R23, R43 and R205: no program can see the backing words of registers 0 and 1, the `written` set, the host's
buffer length or the diagnostics: states that differ in those alone step alike. The buffer's length and the trace of
diagnostics are the model's own fields, log entries 13 and 9. -/
def Obligations.HiddenStateNeverReachesPrograms : Prop :=
  ∀ s s' t : State, SameForPrograms s s' → step s = .next t →
    ∃ t' : State, step s' = .next t' ∧ SameForPrograms t t'

/-- R232: in a core that keeps the invariant, the four ways a run can stand exclude each other: Halted excludes the
fault state and a breakpoint stop, and a breakpoint stop excludes the fault state. -/
def Obligations.RunEndsExcludeEachOther : Prop :=
  ∀ (e : OpcodeMap) (s : State), s.Inv e →
    (s.runEnd = .completed ↔ s.mode = .halted) ∧ (s.runEnd = .faulted ↔ s.fault ≠ none) ∧
    (s.runEnd = .suspended ↔ s.atBreakpoint = true) ∧
    (s.runEnd = .running ↔ s.stopsExecute = false)
end

