-- ==== Sys2Proof/Laws/Decode.lean ====
section
/-! SUPPORT. The bit cursor stands where R104's table puts each field (spec/30_encoding.md R102 to R104). -/

namespace Sys2Proof

theorem opcodeField_eq (w : Word) : opcodeField w = w.extractLsb' 0 4 := rfl

theorem drawThreeRegs_eq (w : Word) :
    drawThreeRegs w = ((w.extractLsb' 4 5, w.extractLsb' 9 5, w.extractLsb' 14 5), 19) := rfl

theorem drawTwoRegs_eq (w : Word) : drawTwoRegs w = ((w.extractLsb' 4 5, w.extractLsb' 9 5), 14) := rfl

theorem drawOffset_eq (w : Word) : drawOffset w = ((w.extractLsb' 4 24).toInt, 28) := rfl

theorem decodeLoadi_eq (w : Word) :
    decodeLoadi w =
      .loadi (w.extractLsb' 4 5) (w.extractLsb' 9 5) (w.extractLsb' 14 16) (w.extractLsb' 30 1 == 1) := rfl

theorem decodeJmpc_eq (w : Word) : decodeJmpc w = .jmpc (w.extractLsb' 4 5) (w.extractLsb' 9 4) := rfl

theorem decodeJmpic_eq (w : Word) : decodeJmpic w = .jmpic (w.extractLsb' 4 24).toInt (w.extractLsb' 28 4) := rfl

/-- `Decode` under the reference assignment, by the opcode's value (R110, R111). -/
theorem decode_by_opcode {w : Word} {op : BitVec 4} (h : w.extractLsb' 0 4 = op) :
    decode w =
      if op = 0 then decodeAlu .reference w
      else if op = 1 then .ok (decodeShift .lsl w)
      else if op = 2 then .ok (decodeShift .asr w)
      else if op = 3 then .ok (decodeShift .lsr w)
      else if op = 4 then .ok (decodeMemory .load w)
      else if op = 5 then .ok (decodeLoadi w)
      else if op = 6 then .ok (decodeMemory .store w)
      else if op = 7 then .ok (.jmp (w.extractLsb' 4 5))
      else if op = 8 then .ok (.jmpi (w.extractLsb' 4 24).toInt)
      else if op = 9 then .ok (decodeJmpc w)
      else if op = 10 then .ok (decodeJmpic w)
      else if op = 11 then .ok .brk
      else .error (.unknownOpcode op) := by
  subst h; rfl

/-- The ALU's functions under the reference assignment, by the function field's value (R112). -/
theorem decodeAlu_by_function {w : Word} {f : BitVec 5} (h : w.extractLsb' 19 5 = f) :
    decodeAlu .reference w =
      let rd := w.extractLsb' 4 5
      let rs1 := w.extractLsb' 9 5
      let rs2 := w.extractLsb' 14 5
      if f = 0 then .ok (.and rd rs1 rs2)
      else if f = 1 then .ok (.or rd rs1 rs2)
      else if f = 2 then .ok (.nor rd rs1 rs2)
      else if f = 3 then .ok (.xor rd rs1 rs2)
      else if f = 4 then .ok (.add rd rs1 rs2)
      else if f = 5 then .ok (.sub rd rs1 rs2)
      else if f = 6 then .ok (.mul rd rs1 rs2)
      else if f = 7 then .ok (.div rd rs1 rs2)
      else .error (.unknownAluFunc f) := by
  subst h; rfl

/-- Every opcode value is an assigned one or is 12 or more (R111). -/
theorem opcode_values (op : BitVec 4) :
    op = 0 ∨ op = 1 ∨ op = 2 ∨ op = 3 ∨ op = 4 ∨ op = 5 ∨ op = 6 ∨ op = 7 ∨ op = 8 ∨ op = 9 ∨ op = 10 ∨ op = 11 ∨
      12 ≤ op.toNat := by revert op; decide

/-- Every function value is an assigned one or is 8 or more (R112). -/
theorem function_values (f : BitVec 5) :
    f = 0 ∨ f = 1 ∨ f = 2 ∨ f = 3 ∨ f = 4 ∨ f = 5 ∨ f = 6 ∨ f = 7 ∨ 8 ≤ f.toNat := by revert f; decide

/-- A field that stands below every shifted field is read back alone. -/
theorem extract_low_or_shift {k : Nat} (op : BitVec 4) (v : BitVec k) (n : Nat) (hn : 4 ≤ n) (rest : Word)
    (h : rest.extractLsb' 0 4 = op) : (rest ||| v.setWidth 32 <<< n).extractLsb' 0 4 = op := by
  subst h
  apply BitVec.eq_of_getLsbD_eq
  intro j hj
  have : j < n := by omega
  simp [hj, this]

end Sys2Proof
end

