-- ==== Sys2Proof/Laws/State.lean ====
section
/-! SUPPORT. One lemma for each field of the state under each update of Machine/, true by definition, so that no later
proof unfolds a record update; and what registers read after each update. -/

namespace Sys2Proof.Machine

variable (s : State)

/-! ### `setX` -/

@[simp] theorem State.setX_regs (i : RegIdx) (v : Word) : (s.setX i v).regs = s.regs.set i.toNat v i.isLt := rfl
@[simp] theorem State.setX_flags (i : RegIdx) (v : Word) : (s.setX i v).flags = s.flags := rfl
@[simp] theorem State.setX_code (i : RegIdx) (v : Word) : (s.setX i v).code = s.code := rfl
@[simp] theorem State.setX_pc (i : RegIdx) (v : Word) : (s.setX i v).pc = s.pc := rfl
@[simp] theorem State.setX_mode (i : RegIdx) (v : Word) : (s.setX i v).mode = s.mode := rfl
@[simp] theorem State.setX_atBreakpoint (i : RegIdx) (v : Word) : (s.setX i v).atBreakpoint = s.atBreakpoint := rfl
@[simp] theorem State.setX_mem (i : RegIdx) (v : Word) : (s.setX i v).mem = s.mem := rfl
@[simp] theorem State.setX_breakpoints (i : RegIdx) (v : Word) : (s.setX i v).breakpoints = s.breakpoints := rfl
@[simp] theorem State.setX_fault (i : RegIdx) (v : Word) : (s.setX i v).fault = s.fault := rfl
@[simp] theorem State.setX_diags (i : RegIdx) (v : Word) : (s.setX i v).diags = s.diags := rfl
@[simp] theorem State.setX_tickInputs (i : RegIdx) (v : Word) : (s.setX i v).tickInputs = s.tickInputs := rfl
@[simp] theorem State.setX_draws (i : RegIdx) (v : Word) : (s.setX i v).draws = s.draws := rfl

/-! ### `emit` -/

@[simp] theorem State.emit_regs (d : Diag) : (s.emit d).regs = s.regs := rfl
@[simp] theorem State.emit_flags (d : Diag) : (s.emit d).flags = s.flags := rfl
@[simp] theorem State.emit_code (d : Diag) : (s.emit d).code = s.code := rfl
@[simp] theorem State.emit_pc (d : Diag) : (s.emit d).pc = s.pc := rfl
@[simp] theorem State.emit_mode (d : Diag) : (s.emit d).mode = s.mode := rfl
@[simp] theorem State.emit_atBreakpoint (d : Diag) : (s.emit d).atBreakpoint = s.atBreakpoint := rfl
@[simp] theorem State.emit_mem (d : Diag) : (s.emit d).mem = s.mem := rfl
@[simp] theorem State.emit_breakpoints (d : Diag) : (s.emit d).breakpoints = s.breakpoints := rfl
@[simp] theorem State.emit_fault (d : Diag) : (s.emit d).fault = s.fault := rfl
@[simp] theorem State.emit_diags (d : Diag) : (s.emit d).diags = s.diags ++ [d] := rfl
@[simp] theorem State.emit_tickInputs (d : Diag) : (s.emit d).tickInputs = s.tickInputs := rfl
@[simp] theorem State.emit_draws (d : Diag) : (s.emit d).draws = s.draws := rfl
@[simp] theorem State.emit_x (d : Diag) (r : RegIdx) : (s.emit d).x r = s.x r := rfl

/-! ### `noteRead` -/

@[simp] theorem State.noteRead_regs (a : Word) : (s.noteRead a).regs = s.regs := rfl
@[simp] theorem State.noteRead_flags (a : Word) : (s.noteRead a).flags = s.flags := rfl
@[simp] theorem State.noteRead_code (a : Word) : (s.noteRead a).code = s.code := rfl
@[simp] theorem State.noteRead_pc (a : Word) : (s.noteRead a).pc = s.pc := rfl
@[simp] theorem State.noteRead_mode (a : Word) : (s.noteRead a).mode = s.mode := rfl
@[simp] theorem State.noteRead_atBreakpoint (a : Word) : (s.noteRead a).atBreakpoint = s.atBreakpoint := rfl
@[simp] theorem State.noteRead_mem (a : Word) : (s.noteRead a).mem = s.mem.touch a := rfl
@[simp] theorem State.noteRead_breakpoints (a : Word) : (s.noteRead a).breakpoints = s.breakpoints := rfl
@[simp] theorem State.noteRead_fault (a : Word) : (s.noteRead a).fault = s.fault := rfl
@[simp] theorem State.noteRead_diags (a : Word) :
    (s.noteRead a).diags = if s.mem.isWritten a then s.diags else s.diags ++ [.uninitializedRead a] := rfl
@[simp] theorem State.noteRead_tickInputs (a : Word) : (s.noteRead a).tickInputs = s.tickInputs := rfl
@[simp] theorem State.noteRead_draws (a : Word) : (s.noteRead a).draws = s.draws := rfl
@[simp] theorem State.noteRead_x (a : Word) (r : RegIdx) : (s.noteRead a).x r = s.x r := rfl

/-! ### `raiseFatal` -/

@[simp] theorem State.raiseFatal_regs (kind : FatalKind) (a : Word) : (s.raiseFatal kind a).regs = s.regs := rfl
@[simp] theorem State.raiseFatal_flags (kind : FatalKind) (a : Word) : (s.raiseFatal kind a).flags = s.flags := rfl
@[simp] theorem State.raiseFatal_code (kind : FatalKind) (a : Word) : (s.raiseFatal kind a).code = s.code := rfl
@[simp] theorem State.raiseFatal_pc (kind : FatalKind) (a : Word) : (s.raiseFatal kind a).pc = s.pc := rfl
@[simp] theorem State.raiseFatal_mode (kind : FatalKind) (a : Word) : (s.raiseFatal kind a).mode = s.mode := rfl
@[simp] theorem State.raiseFatal_atBreakpoint (kind : FatalKind) (a : Word) :
    (s.raiseFatal kind a).atBreakpoint = s.atBreakpoint := rfl
@[simp] theorem State.raiseFatal_mem (kind : FatalKind) (a : Word) : (s.raiseFatal kind a).mem = s.mem := rfl
@[simp] theorem State.raiseFatal_breakpoints (kind : FatalKind) (a : Word) :
    (s.raiseFatal kind a).breakpoints = s.breakpoints := rfl
@[simp] theorem State.raiseFatal_fault (kind : FatalKind) (a : Word) :
    (s.raiseFatal kind a).fault = some ⟨kind, a⟩ := rfl
@[simp] theorem State.raiseFatal_diags (kind : FatalKind) (a : Word) : (s.raiseFatal kind a).diags = s.diags := rfl
@[simp] theorem State.raiseFatal_tickInputs (kind : FatalKind) (a : Word) :
    (s.raiseFatal kind a).tickInputs = s.tickInputs := rfl
@[simp] theorem State.raiseFatal_draws (kind : FatalKind) (a : Word) : (s.raiseFatal kind a).draws = s.draws := rfl
@[simp] theorem State.raiseFatal_x (kind : FatalKind) (a : Word) (r : RegIdx) : (s.raiseFatal kind a).x r = s.x r := rfl

/-! ### `raiseAluFault` -/

@[simp] theorem State.raiseAluFault_regs (kind : FatalKind) : (s.raiseAluFault kind).regs = s.regs := rfl
@[simp] theorem State.raiseAluFault_flags (kind : FatalKind) :
    (s.raiseAluFault kind).flags = s.unspecifiedFlags := rfl
@[simp] theorem State.raiseAluFault_code (kind : FatalKind) : (s.raiseAluFault kind).code = s.code := rfl
@[simp] theorem State.raiseAluFault_pc (kind : FatalKind) : (s.raiseAluFault kind).pc = s.pc := rfl
@[simp] theorem State.raiseAluFault_mode (kind : FatalKind) : (s.raiseAluFault kind).mode = s.mode := rfl
@[simp] theorem State.raiseAluFault_atBreakpoint (kind : FatalKind) :
    (s.raiseAluFault kind).atBreakpoint = s.atBreakpoint := rfl
@[simp] theorem State.raiseAluFault_mem (kind : FatalKind) : (s.raiseAluFault kind).mem = s.mem := rfl
@[simp] theorem State.raiseAluFault_breakpoints (kind : FatalKind) :
    (s.raiseAluFault kind).breakpoints = s.breakpoints := rfl
@[simp] theorem State.raiseAluFault_fault (kind : FatalKind) :
    (s.raiseAluFault kind).fault = some ⟨kind, s.instrAddr⟩ := rfl
@[simp] theorem State.raiseAluFault_diags (kind : FatalKind) : (s.raiseAluFault kind).diags = s.diags := rfl
@[simp] theorem State.raiseAluFault_tickInputs (kind : FatalKind) :
    (s.raiseAluFault kind).tickInputs = s.tickInputs := rfl
@[simp] theorem State.raiseAluFault_draws (kind : FatalKind) : (s.raiseAluFault kind).draws = s.draws := rfl
@[simp] theorem State.raiseAluFault_x (kind : FatalKind) (r : RegIdx) : (s.raiseAluFault kind).x r = s.x r := rfl

/-! ### `finishAlu` -/

@[simp] theorem State.finishAlu_regs (rd : RegIdx) (q : AluResult) :
    (s.finishAlu rd q).regs = s.regs.set rd.toNat q.r rd.isLt := rfl
@[simp] theorem State.finishAlu_flags (rd : RegIdx) (q : AluResult) : (s.finishAlu rd q).flags = q.flags := rfl
@[simp] theorem State.finishAlu_code (rd : RegIdx) (q : AluResult) : (s.finishAlu rd q).code = s.code := rfl
@[simp] theorem State.finishAlu_pc (rd : RegIdx) (q : AluResult) : (s.finishAlu rd q).pc = s.pc := rfl
@[simp] theorem State.finishAlu_mode (rd : RegIdx) (q : AluResult) : (s.finishAlu rd q).mode = s.mode := rfl
@[simp] theorem State.finishAlu_atBreakpoint (rd : RegIdx) (q : AluResult) :
    (s.finishAlu rd q).atBreakpoint = s.atBreakpoint := rfl
@[simp] theorem State.finishAlu_mem (rd : RegIdx) (q : AluResult) : (s.finishAlu rd q).mem = s.mem := rfl
@[simp] theorem State.finishAlu_breakpoints (rd : RegIdx) (q : AluResult) :
    (s.finishAlu rd q).breakpoints = s.breakpoints := rfl
@[simp] theorem State.finishAlu_fault (rd : RegIdx) (q : AluResult) : (s.finishAlu rd q).fault = s.fault := rfl
@[simp] theorem State.finishAlu_diags (rd : RegIdx) (q : AluResult) : (s.finishAlu rd q).diags = s.diags := rfl
@[simp] theorem State.finishAlu_tickInputs (rd : RegIdx) (q : AluResult) :
    (s.finishAlu rd q).tickInputs = s.tickInputs := rfl
@[simp] theorem State.finishAlu_draws (rd : RegIdx) (q : AluResult) : (s.finishAlu rd q).draws = s.draws := rfl

/-! ### `setCode` -/

@[simp] theorem State.setCode_regs (a w : Word) : (s.setCode a w).regs = s.regs := rfl
@[simp] theorem State.setCode_flags (a w : Word) : (s.setCode a w).flags = s.flags := rfl
@[simp] theorem State.setCode_code (a w : Word) : (s.setCode a w).code = s.code.set a.toNat w := rfl
@[simp] theorem State.setCode_pc (a w : Word) : (s.setCode a w).pc = s.pc := rfl
@[simp] theorem State.setCode_mode (a w : Word) : (s.setCode a w).mode = s.mode := rfl
@[simp] theorem State.setCode_atBreakpoint (a w : Word) : (s.setCode a w).atBreakpoint = s.atBreakpoint := rfl
@[simp] theorem State.setCode_mem (a w : Word) : (s.setCode a w).mem = s.mem := rfl
@[simp] theorem State.setCode_breakpoints (a w : Word) : (s.setCode a w).breakpoints = s.breakpoints := rfl
@[simp] theorem State.setCode_fault (a w : Word) : (s.setCode a w).fault = s.fault := rfl
@[simp] theorem State.setCode_diags (a w : Word) : (s.setCode a w).diags = s.diags := rfl
@[simp] theorem State.setCode_tickInputs (a w : Word) : (s.setCode a w).tickInputs = s.tickInputs := rfl
@[simp] theorem State.setCode_draws (a w : Word) : (s.setCode a w).draws = s.draws := rfl
@[simp] theorem State.setCode_x (a w : Word) (r : RegIdx) : (s.setCode a w).x r = s.x r := rfl

/-! ### `setBreakpoint` -/

@[simp] theorem State.setBreakpoint_regs (a : Word) (b : Breakpoint) : (s.setBreakpoint a b).regs = s.regs := rfl
@[simp] theorem State.setBreakpoint_flags (a : Word) (b : Breakpoint) : (s.setBreakpoint a b).flags = s.flags := rfl
@[simp] theorem State.setBreakpoint_code (a : Word) (b : Breakpoint) : (s.setBreakpoint a b).code = s.code := rfl
@[simp] theorem State.setBreakpoint_pc (a : Word) (b : Breakpoint) : (s.setBreakpoint a b).pc = s.pc := rfl
@[simp] theorem State.setBreakpoint_mode (a : Word) (b : Breakpoint) : (s.setBreakpoint a b).mode = s.mode := rfl
@[simp] theorem State.setBreakpoint_atBreakpoint (a : Word) (b : Breakpoint) :
    (s.setBreakpoint a b).atBreakpoint = s.atBreakpoint := rfl
@[simp] theorem State.setBreakpoint_mem (a : Word) (b : Breakpoint) : (s.setBreakpoint a b).mem = s.mem := rfl
@[simp] theorem State.setBreakpoint_breakpoints (a : Word) (b : Breakpoint) :
    (s.setBreakpoint a b).breakpoints = SortedMap.put a.toNat b s.breakpoints := rfl
@[simp] theorem State.setBreakpoint_fault (a : Word) (b : Breakpoint) : (s.setBreakpoint a b).fault = s.fault := rfl
@[simp] theorem State.setBreakpoint_diags (a : Word) (b : Breakpoint) : (s.setBreakpoint a b).diags = s.diags := rfl
@[simp] theorem State.setBreakpoint_tickInputs (a : Word) (b : Breakpoint) :
    (s.setBreakpoint a b).tickInputs = s.tickInputs := rfl
@[simp] theorem State.setBreakpoint_draws (a : Word) (b : Breakpoint) : (s.setBreakpoint a b).draws = s.draws := rfl
@[simp] theorem State.setBreakpoint_x (a : Word) (b : Breakpoint) (r : RegIdx) : (s.setBreakpoint a b).x r = s.x r := rfl

/-! ### `disableBreakpoint` -/

@[simp] theorem State.disableBreakpoint_regs (a : Word) (b : Breakpoint) :
    (s.disableBreakpoint a b).regs = s.regs := rfl
@[simp] theorem State.disableBreakpoint_flags (a : Word) (b : Breakpoint) :
    (s.disableBreakpoint a b).flags = s.flags := rfl
@[simp] theorem State.disableBreakpoint_code (a : Word) (b : Breakpoint) :
    (s.disableBreakpoint a b).code = s.code.set a.toNat b.saved := rfl
@[simp] theorem State.disableBreakpoint_pc (a : Word) (b : Breakpoint) : (s.disableBreakpoint a b).pc = s.pc := rfl
@[simp] theorem State.disableBreakpoint_mode (a : Word) (b : Breakpoint) :
    (s.disableBreakpoint a b).mode = s.mode := rfl
@[simp] theorem State.disableBreakpoint_atBreakpoint (a : Word) (b : Breakpoint) :
    (s.disableBreakpoint a b).atBreakpoint = s.atBreakpoint := rfl
@[simp] theorem State.disableBreakpoint_mem (a : Word) (b : Breakpoint) : (s.disableBreakpoint a b).mem = s.mem := rfl
@[simp] theorem State.disableBreakpoint_breakpoints (a : Word) (b : Breakpoint) :
    (s.disableBreakpoint a b).breakpoints = SortedMap.put a.toNat { b with enabled := false } s.breakpoints := rfl
@[simp] theorem State.disableBreakpoint_fault (a : Word) (b : Breakpoint) :
    (s.disableBreakpoint a b).fault = s.fault := rfl
@[simp] theorem State.disableBreakpoint_diags (a : Word) (b : Breakpoint) :
    (s.disableBreakpoint a b).diags = s.diags := rfl
@[simp] theorem State.disableBreakpoint_tickInputs (a : Word) (b : Breakpoint) :
    (s.disableBreakpoint a b).tickInputs = s.tickInputs := rfl
@[simp] theorem State.disableBreakpoint_draws (a : Word) (b : Breakpoint) :
    (s.disableBreakpoint a b).draws = s.draws := rfl
@[simp] theorem State.disableBreakpoint_x (a : Word) (b : Breakpoint) (r : RegIdx) : (s.disableBreakpoint a b).x r = s.x r := rfl

/-! ### `deleteBreakpoint` -/

@[simp] theorem State.deleteBreakpoint_regs (a : Word) : (s.deleteBreakpoint a).regs = s.regs := rfl
@[simp] theorem State.deleteBreakpoint_flags (a : Word) : (s.deleteBreakpoint a).flags = s.flags := rfl
@[simp] theorem State.deleteBreakpoint_code (a : Word) : (s.deleteBreakpoint a).code = s.code := rfl
@[simp] theorem State.deleteBreakpoint_pc (a : Word) : (s.deleteBreakpoint a).pc = s.pc := rfl
@[simp] theorem State.deleteBreakpoint_mode (a : Word) : (s.deleteBreakpoint a).mode = s.mode := rfl
@[simp] theorem State.deleteBreakpoint_atBreakpoint (a : Word) :
    (s.deleteBreakpoint a).atBreakpoint = s.atBreakpoint := rfl
@[simp] theorem State.deleteBreakpoint_mem (a : Word) : (s.deleteBreakpoint a).mem = s.mem := rfl
@[simp] theorem State.deleteBreakpoint_breakpoints (a : Word) :
    (s.deleteBreakpoint a).breakpoints = SortedMap.erase a.toNat s.breakpoints := rfl
@[simp] theorem State.deleteBreakpoint_fault (a : Word) : (s.deleteBreakpoint a).fault = s.fault := rfl
@[simp] theorem State.deleteBreakpoint_diags (a : Word) : (s.deleteBreakpoint a).diags = s.diags := rfl
@[simp] theorem State.deleteBreakpoint_tickInputs (a : Word) : (s.deleteBreakpoint a).tickInputs = s.tickInputs := rfl
@[simp] theorem State.deleteBreakpoint_draws (a : Word) : (s.deleteBreakpoint a).draws = s.draws := rfl
@[simp] theorem State.deleteBreakpoint_x (a : Word) (r : RegIdx) : (s.deleteBreakpoint a).x r = s.x r := rfl

/-! ### `breakUnrecorded` -/

@[simp] theorem State.breakUnrecorded_regs (a : Word) : (s.breakUnrecorded a).regs = s.regs := rfl
@[simp] theorem State.breakUnrecorded_flags (a : Word) : (s.breakUnrecorded a).flags = s.flags := rfl
@[simp] theorem State.breakUnrecorded_code (a : Word) : (s.breakUnrecorded a).code = s.code := rfl
@[simp] theorem State.breakUnrecorded_pc (a : Word) : (s.breakUnrecorded a).pc = s.pc := rfl
@[simp] theorem State.breakUnrecorded_mode (a : Word) : (s.breakUnrecorded a).mode = s.mode := rfl
@[simp] theorem State.breakUnrecorded_atBreakpoint (a : Word) :
    (s.breakUnrecorded a).atBreakpoint = s.atBreakpoint := rfl
@[simp] theorem State.breakUnrecorded_mem (a : Word) : (s.breakUnrecorded a).mem = s.mem := rfl
@[simp] theorem State.breakUnrecorded_breakpoints (a : Word) :
    (s.breakUnrecorded a).breakpoints = s.breakpoints := rfl
@[simp] theorem State.breakUnrecorded_fault (a : Word) :
    (s.breakUnrecorded a).fault = some ⟨.breakWithoutRecord, a⟩ := rfl
@[simp] theorem State.breakUnrecorded_diags (a : Word) : (s.breakUnrecorded a).diags = s.diags := rfl
@[simp] theorem State.breakUnrecorded_tickInputs (a : Word) : (s.breakUnrecorded a).tickInputs = s.tickInputs := rfl
@[simp] theorem State.breakUnrecorded_draws (a : Word) : (s.breakUnrecorded a).draws = s.draws := rfl
@[simp] theorem State.breakUnrecorded_x (a : Word) (r : RegIdx) : (s.breakUnrecorded a).x r = s.x r := rfl

/-! ### `beginStep` -/

@[simp] theorem State.beginStep_regs : s.beginStep.regs = s.regs := rfl
@[simp] theorem State.beginStep_flags : s.beginStep.flags = s.flags := rfl
@[simp] theorem State.beginStep_code : s.beginStep.code = s.code := rfl
@[simp] theorem State.beginStep_pc : s.beginStep.pc = s.pc := rfl
@[simp] theorem State.beginStep_mode : s.beginStep.mode = s.mode := rfl
@[simp] theorem State.beginStep_atBreakpoint : s.beginStep.atBreakpoint = false := rfl
@[simp] theorem State.beginStep_mem :
    s.beginStep.mem = if s.tickNow then s.mem.write Config.tickAddr 1 else s.mem := rfl
@[simp] theorem State.beginStep_breakpoints : s.beginStep.breakpoints = s.breakpoints := rfl
@[simp] theorem State.beginStep_fault : s.beginStep.fault = s.fault := rfl
@[simp] theorem State.beginStep_diags : s.beginStep.diags = s.diags := rfl
@[simp] theorem State.beginStep_tickInputs : s.beginStep.tickInputs = s.tickInputs.tail := rfl
@[simp] theorem State.beginStep_draws : s.beginStep.draws = s.draws + 1 := rfl
@[simp] theorem State.beginStep_x (r : RegIdx) : s.beginStep.x r = s.x r := rfl

/-! ### `advance` -/

@[simp] theorem State.advance_regs : s.advance.regs = s.regs := rfl
@[simp] theorem State.advance_flags : s.advance.flags = s.flags := rfl
@[simp] theorem State.advance_code : s.advance.code = s.code := rfl
@[simp] theorem State.advance_pc : s.advance.pc = s.pc + 1 := rfl
@[simp] theorem State.advance_mode : s.advance.mode = s.mode := rfl
@[simp] theorem State.advance_atBreakpoint : s.advance.atBreakpoint = s.atBreakpoint := rfl
@[simp] theorem State.advance_mem : s.advance.mem = s.mem := rfl
@[simp] theorem State.advance_breakpoints : s.advance.breakpoints = s.breakpoints := rfl
@[simp] theorem State.advance_fault : s.advance.fault = s.fault := rfl
@[simp] theorem State.advance_diags : s.advance.diags = s.diags := rfl
@[simp] theorem State.advance_tickInputs : s.advance.tickInputs = s.tickInputs := rfl
@[simp] theorem State.advance_draws : s.advance.draws = s.draws := rfl
@[simp] theorem State.advance_x (r : RegIdx) : s.advance.x r = s.x r := rfl

/-! ### `endStep` -/

@[simp] theorem State.endStep_regs : s.endStep.regs = s.regs := rfl
@[simp] theorem State.endStep_flags : s.endStep.flags = s.flags := rfl
@[simp] theorem State.endStep_code : s.endStep.code = s.code := rfl
@[simp] theorem State.endStep_pc : s.endStep.pc = s.pc := rfl
@[simp] theorem State.endStep_mode :
    s.endStep.mode = if s.fault = none ∧ s.pc.toNat = s.code.length then .halted else s.mode := rfl
@[simp] theorem State.endStep_atBreakpoint : s.endStep.atBreakpoint = s.atBreakpoint := rfl
@[simp] theorem State.endStep_mem : s.endStep.mem = s.mem := rfl
@[simp] theorem State.endStep_breakpoints : s.endStep.breakpoints = s.breakpoints := rfl
@[simp] theorem State.endStep_fault : s.endStep.fault = s.fault := rfl
@[simp] theorem State.endStep_diags : s.endStep.diags = s.diags := rfl
@[simp] theorem State.endStep_tickInputs : s.endStep.tickInputs = s.tickInputs := rfl
@[simp] theorem State.endStep_draws : s.endStep.draws = s.draws := rfl
@[simp] theorem State.endStep_x (r : RegIdx) : s.endStep.x r = s.x r := rfl

end Sys2Proof.Machine
end

