-- ==== Sys2Proof/Laws/Registers.lean ====
section
/-! SUPPORT. What a register write does, said once (spec/10_state.md R22 to R24). -/

namespace Sys2Proof.Machine

theorem RegIdx.toNat_eq_iff (r i : RegIdx) : r.toNat = i.toNat ↔ r = i :=
  ⟨BitVec.eq_of_toNat_eq, fun h => h ▸ rfl⟩

/-- The read contract of registers 0 and 1, with the literals as simp writes them. -/
@[simp] theorem State.x_zero (s : State) : s.x 0#5 = 0#32 := rfl

@[simp] theorem State.x_one (s : State) : s.x 1#5 = 1#32 := rfl

/-- A read depends on the backing array alone. -/
theorem State.x_congr {s t : State} (h : s.regs = t.regs) (r : RegIdx) : s.x r = t.x r := by
  simp [State.x, h]

/-- What every register reads after a write. -/
theorem State.x_setX (s : State) (i r : RegIdx) (v : Word) :
    (s.setX i v).x r = if r = 0 then 0 else if r = 1 then 1 else if r = i then v else s.x r := by
  simp only [State.x, State.setX, Vector.getElem_set, RegIdx.toNat_eq_iff, eq_comm (a := i)]
  split_ifs <;> rfl

/-- `setX` in the terms of Safety: the whole register file after it. -/
theorem State.setX_written (s : State) (i : RegIdx) (v : Word) : RegWritten s (s.setX i v) i v :=
  ⟨fun k h => by simp [State.setX, Vector.getElem_set, eq_comm], fun r => s.x_setX i r v⟩

theorem State.setX_only (s : State) (i : RegIdx) (v : Word) : OnlyRegs s (s.setX i v) := rfl

/-- The end of an ALU instruction: the register file, the flags, and nothing else. -/
theorem State.finishAlu_written (s : State) (rd : RegIdx) (q : AluResult) :
    RegWritten s (s.finishAlu rd q) rd q.r :=
  State.setX_written { s with flags := q.flags } rd q.r

theorem State.finishAlu_only (s : State) (rd : RegIdx) (q : AluResult) : OnlyRegsFlags s (s.finishAlu rd q) := rfl

end Sys2Proof.Machine
end

