-- ==== Sys2Proof/Laws/Memory.lean ====
section
/-! SUPPORT. RAM: a read after a write, and the canonical form that every memory operation keeps
(spec/20_memory.md R60 to R65, R77, R78). -/

namespace Sys2Proof.Machine

/-! ### Finite maps and sets -/

theorem SortedMap.get_put {α : Type} (k j : Nat) (v : α) (m : List (Nat × α)) :
    SortedMap.get j (SortedMap.put k v m) = if k = j then some v else SortedMap.get j m := by
  induction m with
  | nil => rfl
  | cons e rest ih =>
    obtain ⟨i, u⟩ := e
    by_cases h1 : k < i
    · simp only [SortedMap.put, if_pos h1, SortedMap.get]
    · by_cases h2 : i = k
      · subst h2
        simp only [SortedMap.put, if_neg h1, if_true, SortedMap.get]
        split_ifs <;> rfl
      · simp only [SortedMap.put, if_neg h1, if_neg h2, SortedMap.get, ih]
        by_cases h3 : i = j
        · have : k ≠ j := fun e => h2 (h3.trans e.symm)
          simp only [if_pos h3, if_neg this]
        · simp only [if_neg h3]

theorem SortedMap.get_erase {α : Type} (k j : Nat) (m : List (Nat × α)) :
    SortedMap.get j (SortedMap.erase k m) = if k = j then none else SortedMap.get j m := by
  induction m with
  | nil => simp [SortedMap.erase, SortedMap.get]
  | cons e rest ih =>
    obtain ⟨i, u⟩ := e
    by_cases h2 : i = k
    · subst h2
      simp only [SortedMap.erase, if_true, SortedMap.get, ih]
      split_ifs <;> rfl
    · simp only [SortedMap.erase, if_neg h2, SortedMap.get, ih]
      by_cases h3 : i = j
      · have : k ≠ j := fun e => h2 (h3.trans e.symm)
        simp only [if_pos h3, if_neg this]
      · simp only [if_neg h3]

theorem SortedMap.mem_put {α : Type} {k : Nat} {v : α} {m : List (Nat × α)} {e : Nat × α}
    (h : e ∈ SortedMap.put k v m) : e = (k, v) ∨ e ∈ m := by
  induction m with
  | nil => simpa [SortedMap.put] using h
  | cons d rest ih =>
    obtain ⟨i, u⟩ := d
    rw [SortedMap.put] at h
    split_ifs at h
    · exact List.mem_cons.1 h
    · exact (List.mem_cons.1 h).imp_right (List.mem_cons_of_mem _)
    · rcases List.mem_cons.1 h with h | h
      · exact .inr (h ▸ List.mem_cons_self)
      · exact (ih h).imp_right (List.mem_cons_of_mem _)

theorem SortedMap.mem_erase {α : Type} {k : Nat} {m : List (Nat × α)} {e : Nat × α} :
    e ∈ SortedMap.erase k m ↔ e ∈ m ∧ e.1 ≠ k := by
  induction m with
  | nil => simp [SortedMap.erase]
  | cons d rest ih =>
    obtain ⟨i, u⟩ := d
    by_cases h : i = k
    · simp only [SortedMap.erase, h, if_true, ih, List.mem_cons]
      constructor
      · exact fun ⟨a, b⟩ => ⟨.inr a, b⟩
      · rintro ⟨rfl | a, b⟩
        · exact absurd rfl b
        · exact ⟨a, b⟩
    · simp only [SortedMap.erase, h, if_false, ih, List.mem_cons]
      constructor
      · rintro (rfl | ⟨a, b⟩)
        · exact ⟨.inl rfl, h⟩
        · exact ⟨.inr a, b⟩
      · rintro ⟨rfl | a, b⟩
        · exact .inl rfl
        · exact .inr ⟨a, b⟩

theorem SortedSet.mem_insert {k a : Nat} {l : List Nat} : a ∈ SortedSet.insert k l ↔ a = k ∨ a ∈ l := by
  induction l with
  | nil => simp [SortedSet.insert]
  | cons j rest ih =>
    by_cases h1 : k < j
    · simp [SortedSet.insert, h1]
    · by_cases h2 : j = k
      · subst h2; simp [SortedSet.insert]
      · simp only [SortedSet.insert, h1, h2, if_false, List.mem_cons, ih]
        tauto

theorem SortedSet.wf_insert {k : Nat} {l : List Nat} (h : SortedSet.wf l) : SortedSet.wf (SortedSet.insert k l) := by
  induction l with
  | nil => simp [SortedSet.insert]
  | cons j rest ih =>
    rw [SortedSet.wf, List.pairwise_cons] at h
    by_cases h1 : k < j
    · rw [SortedSet.insert, if_pos h1, SortedSet.wf, List.pairwise_cons, List.pairwise_cons]
      refine ⟨?_, h.1, h.2⟩
      intro b hb
      rcases List.mem_cons.1 hb with rfl | hb
      · exact h1
      · exact lt_trans h1 (h.1 b hb)
    · by_cases h2 : j = k
      · rw [SortedSet.insert, if_neg h1, if_pos h2, SortedSet.wf, List.pairwise_cons]
        exact h
      · rw [SortedSet.insert, if_neg h1, if_neg h2, SortedSet.wf, List.pairwise_cons]
        refine ⟨fun b hb => ?_, ih h.2⟩
        rcases SortedSet.mem_insert.1 hb with rfl | hb
        · omega
        · exact h.1 b hb

theorem SortedMap.keys_put {α : Type} (k : Nat) (v : α) (m : List (Nat × α)) :
    (SortedMap.put k v m).map Prod.fst = SortedSet.insert k (m.map Prod.fst) := by
  induction m with
  | nil => rfl
  | cons e rest ih =>
    obtain ⟨i, u⟩ := e
    by_cases h1 : k < i
    · simp [SortedMap.put, SortedSet.insert, h1]
    · by_cases h2 : i = k
      · simp [SortedMap.put, SortedSet.insert, h2]
      · simp [SortedMap.put, SortedSet.insert, h1, h2, ih]

theorem SortedMap.wf_put {α : Type} {k : Nat} {v : α} {m : List (Nat × α)} (h : SortedMap.wf m) :
    SortedMap.wf (SortedMap.put k v m) := by
  rw [SortedMap.wf, SortedMap.keys_put]
  exact SortedSet.wf_insert h

theorem SortedMap.erase_sublist {α : Type} (k : Nat) (m : List (Nat × α)) : (SortedMap.erase k m).Sublist m := by
  induction m with
  | nil => exact List.Sublist.refl _
  | cons e rest ih =>
    obtain ⟨i, u⟩ := e
    by_cases h : i = k
    · simpa [SortedMap.erase, h] using ih.cons (i, u)
    · simpa [SortedMap.erase, h] using ih.cons_cons (i, u)

theorem SortedMap.wf_erase {α : Type} {k : Nat} {m : List (Nat × α)} (h : SortedMap.wf m) :
    SortedMap.wf (SortedMap.erase k m) :=
  List.Pairwise.sublist ((SortedMap.erase_sublist k m).map _) h

/-- In a canonical map, what is listed is what is found. -/
theorem SortedMap.get_eq_of_mem {α : Type} {m : List (Nat × α)} (h : SortedMap.wf m) {e : Nat × α} (he : e ∈ m) :
    SortedMap.get e.1 m = some e.2 := by
  induction m with
  | nil => simp at he
  | cons d rest ih =>
    obtain ⟨i, u⟩ := d
    rw [SortedMap.wf, List.map_cons, SortedSet.wf, List.pairwise_cons] at h
    rcases List.mem_cons.1 he with rfl | he
    · simp [SortedMap.get]
    · have hlt : i < e.1 := h.1 e.1 (List.mem_map.2 ⟨e, he, rfl⟩)
      have hne : i ≠ e.1 := by omega
      simp only [SortedMap.get, hne, if_false]
      exact ih h.2 he

/-- What is found is listed. -/
theorem SortedMap.mem_of_get {α : Type} {m : List (Nat × α)} {k : Nat} {v : α} (h : SortedMap.get k m = some v) :
    (k, v) ∈ m := by
  induction m with
  | nil => simp [SortedMap.get] at h
  | cons d rest ih =>
    obtain ⟨i, u⟩ := d
    by_cases hi : i = k
    · subst hi
      simp only [SortedMap.get, if_true, Option.some.injEq] at h
      exact h ▸ List.mem_cons_self
    · simp only [SortedMap.get, hi, if_false] at h
      exact List.mem_cons_of_mem _ (ih h)

/-! ### One RAM word -/

theorem Word.toNat_eq_iff (a b : Word) : a.toNat = b.toNat ↔ a = b := ⟨BitVec.eq_of_toNat_eq, fun h => h ▸ rfl⟩

/-- The cells after a raw store, as a lookup. -/
theorem Memory.get_rawStore (m : Memory) (a v : Word) (k : Nat) :
    (SortedMap.get k (m.rawStore a v).cells).getD Config.unlistedWord =
      if a.toNat = k then v else (SortedMap.get k m.cells).getD Config.unlistedWord := by
  by_cases hv : v = Config.unlistedWord
  · simp only [Memory.rawStore, if_pos hv, SortedMap.get_erase]
    split_ifs
    · exact hv.symm
    · rfl
  · simp only [Memory.rawStore, if_neg hv, SortedMap.get_put]
    split_ifs <;> rfl

/-- A read after a raw store. -/
theorem Memory.read_rawStore (m : Memory) (a v b : Word) :
    (m.rawStore a v).read b = if b = a then v else m.read b := by
  simp only [Memory.read, Memory.get_rawStore, Word.toNat_eq_iff, eq_comm (a := a)]

/-- What is written after a raw store. -/
theorem Memory.isWritten_rawStore (m : Memory) (a v b : Word) :
    (m.rawStore a v).isWritten b = (decide (b = a) || m.isWritten b) := by
  rw [Bool.eq_iff_iff]
  simp [Memory.isWritten, Memory.rawStore, SortedSet.mem_insert, Word.toNat_eq_iff]

@[simp] theorem Memory.read_touch (m : Memory) (a b : Word) : (m.touch a).read b = m.read b := rfl
@[simp] theorem Memory.isWritten_touch (m : Memory) (a b : Word) : (m.touch a).isWritten b = m.isWritten b := rfl

/-! ### The snapshot (R77, R80) -/

/-- Every word after the eight stores of a snapshot. -/
theorem Memory.read_storeSnapshot (m : Memory) (t : Snapshot) (b : Word) :
    (m.storeSnapshot t).read b =
      if b = 1033 then t.extra else if b = 1032 then t.wday else if b = 1031 then t.year
      else if b = 1030 then t.mon else if b = 1029 then t.mday else if b = 1028 then t.hour
      else if b = 1027 then t.min else if b = 1026 then BitVec.ofNat 32 t.sec.val else m.read b := by
  simp only [Memory.storeSnapshot, Memory.read_rawStore]

/-- A word outside 1026 to 1033 keeps its value. -/
theorem Memory.read_storeSnapshot_outside (m : Memory) (t : Snapshot) (b : Word)
    (h : ¬ (1026 ≤ b.toNat ∧ b.toNat ≤ 1033)) : (m.storeSnapshot t).read b = m.read b := by
  rw [Memory.read_storeSnapshot]
  split_ifs <;> first | (subst b; exact absurd (by decide) h) | rfl

theorem Memory.isWritten_storeSnapshot (m : Memory) (t : Snapshot) (b : Word) :
    (m.storeSnapshot t).isWritten b = (decide (1026 ≤ b.toNat ∧ b.toNat ≤ 1033) || m.isWritten b) := by
  simp only [Memory.storeSnapshot, Memory.isWritten_rawStore, ← Word.toNat_eq_iff, ← Bool.or_assoc]
  congr 1
  simp only [← Bool.decide_or, decide_eq_decide, BitVec.toNat_ofNat, BitVec.ofNat_eq_ofNat]
  omega

/-! ### The snapshot of a clock time (R77, R79) -/

@[simp] theorem Snapshot.ofClock_sec (e : RtcEncoding) (t : ClockTime) :
    (Snapshot.ofClock e t).sec.val = t.seconds % 60 := rfl
@[simp] theorem Snapshot.ofClock_mon (e : RtcEncoding) (t : ClockTime) :
    (Snapshot.ofClock e t).mon = BitVec.ofNat 32 (e.monthBase.val + t.month.val) := rfl
@[simp] theorem Snapshot.ofClock_year (e : RtcEncoding) (t : ClockTime) :
    (Snapshot.ofClock e t).year = t.year + 1900 := rfl
@[simp] theorem Snapshot.ofClock_wday (e : RtcEncoding) (t : ClockTime) :
    (Snapshot.ofClock e t).wday = e.weekday t.weekday := rfl

/-! ### A write that notifies -/

/-- `MemWrite` under the reference listeners: the raw store, then the capture for the trigger address alone
(R64, R71). -/
theorem Memory.write_eq (m : Memory) (a v : Word) :
    m.write a v = if a = Config.rtcTriggerAddr then (m.rawStore a v).captureRtc v else m.rawStore a v := by
  have h : listens ⟨Config.rtcTriggerAddr, Config.rtcTriggerAddr, .rtcCapture⟩ a
      = decide (a = Config.rtcTriggerAddr) := by
    simp only [listens, ← Bool.decide_and, decide_eq_decide, ← Word.toNat_eq_iff]
    omega
  simp only [Memory.write, Config.listeners, Memory.notify, h, decide_eq_true_eq, Memory.runCallback]

/-- A write away from the trigger address, or of zero, is a raw store (R72, R78). -/
theorem Memory.write_plain (m : Memory) {a v : Word} (h : a ≠ Config.rtcTriggerAddr ∨ v = 0) :
    m.write a v = m.rawStore a v := by
  rw [Memory.write_eq]
  rcases h with h | h
  · exact if_neg h
  · simp [h, Memory.captureRtc]

/-! ### The canonical form -/

theorem Memory.wf_reset : Memory.reset.wf := by decide

theorem Memory.wf_touch {m : Memory} (h : m.wf) (a : Word) : (m.touch a).wf := by
  obtain ⟨h1, h2, h3, h4, h5⟩ := h
  have := a.isLt
  refine ⟨h1, h2, h3, fun b hb => ?_, ?_⟩
  · exact lt_of_lt_of_le (h4 b hb) (le_max_left _ _)
  · simp only [Memory.touch, addressSpace] at *
    omega

theorem Memory.wf_rawStore {m : Memory} (h : m.wf) (a v : Word) : (m.rawStore a v).wf := by
  obtain ⟨h1, h2, h3, h4, h5⟩ := h
  have := a.isLt
  refine ⟨?_, ?_, SortedSet.wf_insert h3, fun b hb => ?_, ?_⟩
  · by_cases hv : v = Config.unlistedWord
    · simpa only [Memory.rawStore, if_pos hv] using SortedMap.wf_erase h1
    · simpa only [Memory.rawStore, if_neg hv] using SortedMap.wf_put h1
  · intro c hc
    by_cases hv : v = Config.unlistedWord
    · simp only [Memory.rawStore, if_pos hv, SortedMap.mem_erase] at hc
      exact ⟨(h2 c hc.1).1, SortedSet.mem_insert.2 (.inr (h2 c hc.1).2)⟩
    · simp only [Memory.rawStore, if_neg hv] at hc
      rcases SortedMap.mem_put hc with rfl | hc
      · exact ⟨hv, SortedSet.mem_insert.2 (.inl rfl)⟩
      · exact ⟨(h2 c hc).1, SortedSet.mem_insert.2 (.inr (h2 c hc).2)⟩
  · rcases SortedSet.mem_insert.1 hb with rfl | hb
    · exact lt_of_lt_of_le (Nat.lt_succ_self _) (le_max_right _ _)
    · exact lt_of_lt_of_le (h4 b hb) (le_max_left _ _)
  · simp only [Memory.rawStore, addressSpace] at *
    omega

theorem Memory.wf_storeSnapshot {m : Memory} (h : m.wf) (t : Snapshot) : (m.storeSnapshot t).wf := by
  unfold Memory.storeSnapshot
  iterate 8 apply Memory.wf_rawStore
  exact h

theorem Memory.wf_captureRtc {m : Memory} (h : m.wf) (v : Word) : (m.captureRtc v).wf := by
  unfold Memory.captureRtc
  split
  · exact h
  · exact Memory.wf_storeSnapshot (m := { m with rtcInputs := m.rtcInputs.tail, rtcDraws := m.rtcDraws + 1 }) h _

theorem Memory.wf_write {m : Memory} (h : m.wf) (a v : Word) : (m.write a v).wf := by
  rw [Memory.write_eq]
  split
  · exact Memory.wf_captureRtc (Memory.wf_rawStore h a v) v
  · exact Memory.wf_rawStore h a v

theorem Memory.wf_loadFrom (ws : List Word) {m : Memory} (h : m.wf) (k : Nat) : (m.loadFrom k ws).wf := by
  induction ws generalizing m k with
  | nil => exact h
  | cons w ws ih => exact ih (Memory.wf_rawStore h _ w) (k + 1)

/-- In canonical RAM a never-written word reads 0 (R62). -/
theorem Memory.read_unwritten {m : Memory} (h : m.wf) {a : Word} (ha : m.isWritten a = false) : m.read a = 0 := by
  unfold Memory.read
  cases hg : SortedMap.get a.toNat m.cells with
  | none => rfl
  | some v =>
    have := (h.2.1 _ (SortedMap.mem_of_get hg)).2
    simp [Memory.isWritten] at ha
    exact absurd this ha

end Sys2Proof.Machine
end

