-- ==== Sys2Proof/Laws/Exec.lean ====
section
/-! SUPPORT. What each instruction answers, one equation for each constructor, and what the shared operations of BREAK
and of the Breakpoint Manager can do. -/

namespace Sys2Proof.Machine

variable (s : State)

theorem exec_and (rd rs1 rs2 : RegIdx) :
    exec (.and rd rs1 rs2) s = .next (s.finishAlu rd (aluAnd (s.x rs1) (s.x rs2))) := rfl
theorem exec_or (rd rs1 rs2 : RegIdx) :
    exec (.or rd rs1 rs2) s = .next (s.finishAlu rd (aluOr (s.x rs1) (s.x rs2))) := rfl
theorem exec_nor (rd rs1 rs2 : RegIdx) :
    exec (.nor rd rs1 rs2) s = .next (s.finishAlu rd (aluNor (s.x rs1) (s.x rs2))) := rfl
theorem exec_xor (rd rs1 rs2 : RegIdx) :
    exec (.xor rd rs1 rs2) s = .next (s.finishAlu rd (aluXor (s.x rs1) (s.x rs2))) := rfl
theorem exec_add (rd rs1 rs2 : RegIdx) :
    exec (.add rd rs1 rs2) s = .next (s.finishAlu rd (aluAdd (s.x rs1) (s.x rs2))) := rfl
theorem exec_sub (rd rs1 rs2 : RegIdx) :
    exec (.sub rd rs1 rs2) s = .next (s.finishAlu rd (aluSub (s.x rs1) (s.x rs2))) := rfl
theorem exec_mul (rd rs1 rs2 : RegIdx) :
    exec (.mul rd rs1 rs2) s = .next (s.finishAlu rd (aluMul (s.x rs1) (s.x rs2))) := rfl
theorem exec_div (rd rs1 rs2 : RegIdx) :
    exec (.div rd rs1 rs2) s = .next (if s.x rs2 = 0 then s.raiseAluFault .divisionByZero
      else s.finishAlu rd (aluDiv (s.x rs1) (s.x rs2))) := rfl
theorem exec_lsl (rd rs1 rs2 : RegIdx) :
    exec (.lsl rd rs1 rs2) s = .next (s.setX rd (s.x rs1 <<< s.shiftAmount rs2)) := rfl
theorem exec_asr (rd rs1 rs2 : RegIdx) :
    exec (.asr rd rs1 rs2) s = .next (s.setX rd ((s.x rs1).sshiftRight (s.shiftAmount rs2))) := rfl
theorem exec_lsr (rd rs1 rs2 : RegIdx) :
    exec (.lsr rd rs1 rs2) s = .next (s.setX rd (s.x rs1 >>> s.shiftAmount rs2)) := rfl
theorem exec_load (rd rs : RegIdx) :
    exec (.load rd rs) s = .next ((s.noteRead (s.x rs)).setX rd (s.mem.read (s.x rs))) := rfl
theorem exec_loadi (rd rs : RegIdx) (imm : BitVec 16) (lhw : Bool) :
    exec (.loadi rd rs imm lhw) s = .next (s.setX rd (s.x rs + loadiAddend imm lhw)) := rfl
theorem exec_store (rd rs : RegIdx) :
    exec (.store rd rs) s = .next { s with mem := s.mem.write (s.x rd) (s.x rs) } := rfl
theorem exec_jmp (rs : RegIdx) : exec (.jmp rs) s = .next { s with pc := s.x rs } := rfl
theorem exec_jmpi (offset : Int) :
    exec (.jmpi offset) s = .next { s with pc := s.relativeTarget offset } := rfl
theorem exec_jmpc (rs : RegIdx) (select : BitVec 4) :
    exec (.jmpc rs select) s = .next { s with pc := if s.flags.selected select then s.x rs else s.pc } := rfl
theorem exec_jmpic (offset : Int) (select : BitVec 4) :
    exec (.jmpic offset select) s =
      .next { s with pc := if s.flags.selected select then s.relativeTarget offset else s.pc } := rfl
theorem exec_brk :
    exec .brk s = .next (({ s with pc := s.instrAddr }.emit (.breakpointHit s.instrAddr)).takeBreak s.instrAddr) :=
  rfl

/-- What BREAK does at `a`: one of the two cases of R190. -/
theorem State.takeBreak_cases (a : Word) :
    (∃ saved, s.breakpointAt a = some ⟨saved, true⟩ ∧
      s.takeBreak a = { s.disableBreakpoint a ⟨saved, true⟩ with atBreakpoint := true }) ∨
    ((∀ saved, s.breakpointAt a ≠ some ⟨saved, true⟩) ∧
      s.takeBreak a = s.raiseFatal .breakWithoutRecord a) := by
  unfold State.takeBreak
  cases h : s.breakpointAt a with
  | none => exact .inr ⟨fun _ e => (by cases e), rfl⟩
  | some b =>
    obtain ⟨saved, on⟩ := b
    cases on with
    | true => exact .inl ⟨saved, rfl, rfl⟩
    | false => exact .inr ⟨fun _ e => (by cases e), rfl⟩

/-- What BREAK answers, in one record for each case. -/
theorem exec_brk_cases :
    (∃ saved, s.breakpointAt s.instrAddr = some ⟨saved, true⟩ ∧
      exec .brk s = .next { s with
        pc := s.instrAddr, diags := s.diags ++ [.breakpointHit s.instrAddr]
        code := s.code.set s.instrAddr.toNat saved
        breakpoints := SortedMap.put s.instrAddr.toNat ⟨saved, false⟩ s.breakpoints, atBreakpoint := true }) ∨
    ((∀ saved, s.breakpointAt s.instrAddr ≠ some ⟨saved, true⟩) ∧
      exec .brk s = .next { s with
        pc := s.instrAddr, diags := s.diags ++ [.breakpointHit s.instrAddr]
        fault := some ⟨.breakWithoutRecord, s.instrAddr⟩ }) := by
  rw [exec_brk]
  rcases State.takeBreak_cases (({ s with pc := s.instrAddr }.emit (.breakpointHit s.instrAddr))) s.instrAddr with
    ⟨saved, hb, h⟩ | ⟨hb, h⟩
  · exact .inl ⟨saved, hb, by rw [h]; rfl⟩
  · exact .inr ⟨hb, by rw [h]; rfl⟩

/-- What `add` does: one of the cases of R223. -/
theorem State.addBreakpoint_cases (e : OpcodeMap) (a : Word) :
    (s.code[a.toNat]? = none ∧ s.addBreakpoint e a = s) ∨
    (∃ w, s.code[a.toNat]? = some w ∧
      ((s.breakpointAt a = none ∧
          s.addBreakpoint e a = (s.setBreakpoint a ⟨w, true⟩).setCode a (sentinelWord e)) ∨
        (∃ saved, s.breakpointAt a = some ⟨saved, true⟩ ∧ s.addBreakpoint e a = s) ∨
        (∃ saved, s.breakpointAt a = some ⟨saved, false⟩ ∧
          s.addBreakpoint e a = (s.setBreakpoint a ⟨saved, true⟩).setCode a (sentinelWord e)))) := by
  unfold State.addBreakpoint
  cases hc : s.code[a.toNat]? with
  | none => exact .inl ⟨rfl, rfl⟩
  | some w =>
    refine .inr ⟨w, rfl, ?_⟩
    cases h : s.breakpointAt a with
    | none => exact .inl ⟨rfl, rfl⟩
    | some b =>
      obtain ⟨saved, on⟩ := b
      cases on with
      | true => exact .inr (.inl ⟨saved, rfl, rfl⟩)
      | false => exact .inr (.inr ⟨saved, rfl, rfl⟩)

/-- What `remove` does: one of the cases of R225. -/
theorem State.removeBreakpoint_cases (a : Word) :
    (s.breakpointAt a = none ∧ s.removeBreakpoint a = s) ∨
    (∃ saved, s.breakpointAt a = some ⟨saved, true⟩ ∧
      s.removeBreakpoint a = (s.setCode a saved).deleteBreakpoint a) ∨
    (∃ saved, s.breakpointAt a = some ⟨saved, false⟩ ∧ s.removeBreakpoint a = s.deleteBreakpoint a) := by
  unfold State.removeBreakpoint
  cases h : s.breakpointAt a with
  | none => exact .inl ⟨rfl, rfl⟩
  | some b =>
    obtain ⟨saved, on⟩ := b
    cases on with
    | true => exact .inr (.inl ⟨saved, rfl, rfl⟩)
    | false => exact .inr (.inr ⟨saved, rfl, rfl⟩)

end Sys2Proof.Machine
end

