-- ==== Sys2Proof/Laws/PerInstr.lean ====
section
/-! SUPPORT. A fact about every instruction as syntax, one lemma for each constructor: the low four bits of an
instruction's word are its opcode (spec/30_encoding.md R101, R118). -/

namespace Sys2Proof

/-- The opcode of an instruction (R111). -/
def opcodeOf : Instr → Opcode
  | .and _ _ _ => .alu
  | .or _ _ _ => .alu
  | .nor _ _ _ => .alu
  | .xor _ _ _ => .alu
  | .add _ _ _ => .alu
  | .sub _ _ _ => .alu
  | .mul _ _ _ => .alu
  | .div _ _ _ => .alu
  | .lsl _ _ _ => .lsl
  | .asr _ _ _ => .asr
  | .lsr _ _ _ => .lsr
  | .load _ _ => .load
  | .loadi _ _ _ _ => .loadi
  | .store _ _ => .store
  | .jmp _ => .jmp
  | .jmpi _ => .jmpi
  | .jmpc _ _ => .jmpc
  | .jmpic _ _ => .jmpic
  | .brk => .brk

theorem opcode_alone (op : BitVec 4) : (op.setWidth 32).extractLsb' 0 4 = op := by
  apply BitVec.eq_of_getLsbD_eq
  intro j hj
  have : j < 32 := by omega
  simp [hj, this]

theorem opcode_FS (op : BitVec 4) (a b c : RegIdx) : (encodeFS op a b c).extractLsb' 0 4 = op :=
  extract_low_or_shift _ _ _ (by omega) _
    (extract_low_or_shift _ _ _ (by omega) _ (extract_low_or_shift _ _ _ (by omega) _ (opcode_alone op)))

theorem opcode_FA (op : BitVec 4) (a b c : RegIdx) (f : BitVec 5) : (encodeFA op a b c f).extractLsb' 0 4 = op :=
  extract_low_or_shift _ _ _ (by omega) _ (opcode_FS op a b c)

theorem opcode_FM (op : BitVec 4) (a b : RegIdx) : (encodeFM op a b).extractLsb' 0 4 = op :=
  extract_low_or_shift _ _ _ (by omega) _ (extract_low_or_shift _ _ _ (by omega) _ (opcode_alone op))

theorem opcode_FL (op : BitVec 4) (a b : RegIdx) (i : BitVec 16) (l : Bool) :
    (encodeFL op a b i l).extractLsb' 0 4 = op :=
  extract_low_or_shift _ _ _ (by omega) _ (extract_low_or_shift _ _ _ (by omega) _ (opcode_FM op a b))

theorem opcode_FJ (op : BitVec 4) (a : RegIdx) : (encodeFJ op a).extractLsb' 0 4 = op :=
  extract_low_or_shift _ _ _ (by omega) _ (opcode_alone op)

theorem opcode_FJI (op : BitVec 4) (o : Int) : (encodeFJI op o).extractLsb' 0 4 = op :=
  extract_low_or_shift _ _ _ (by omega) _ (opcode_alone op)

theorem opcode_FJC (op : BitVec 4) (a : RegIdx) (c : BitVec 4) : (encodeFJC op a c).extractLsb' 0 4 = op :=
  extract_low_or_shift _ _ _ (by omega) _ (opcode_FJ op a)

theorem opcode_FJIC (op : BitVec 4) (o : Int) (c : BitVec 4) : (encodeFJIC op o c).extractLsb' 0 4 = op :=
  extract_low_or_shift _ _ _ (by omega) _ (opcode_FJI op o)

/-- The drawn opcode of `i`'s word is the one the map gives `i`'s opcode, for every map. -/
def Laws.OpcodeBits.Statement (i : Instr) : Prop :=
  ∀ e : OpcodeMap, opcodeField (encodeWith e i) = e.opc (opcodeOf i)

theorem Laws.OpcodeBits.and (rd rs1 rs2 : RegIdx) : Laws.OpcodeBits.Statement (.and rd rs1 rs2) :=
  fun _ => opcode_FA _ _ _ _ _
theorem Laws.OpcodeBits.or (rd rs1 rs2 : RegIdx) : Laws.OpcodeBits.Statement (.or rd rs1 rs2) :=
  fun _ => opcode_FA _ _ _ _ _
theorem Laws.OpcodeBits.nor (rd rs1 rs2 : RegIdx) : Laws.OpcodeBits.Statement (.nor rd rs1 rs2) :=
  fun _ => opcode_FA _ _ _ _ _
theorem Laws.OpcodeBits.xor (rd rs1 rs2 : RegIdx) : Laws.OpcodeBits.Statement (.xor rd rs1 rs2) :=
  fun _ => opcode_FA _ _ _ _ _
theorem Laws.OpcodeBits.add (rd rs1 rs2 : RegIdx) : Laws.OpcodeBits.Statement (.add rd rs1 rs2) :=
  fun _ => opcode_FA _ _ _ _ _
theorem Laws.OpcodeBits.sub (rd rs1 rs2 : RegIdx) : Laws.OpcodeBits.Statement (.sub rd rs1 rs2) :=
  fun _ => opcode_FA _ _ _ _ _
theorem Laws.OpcodeBits.mul (rd rs1 rs2 : RegIdx) : Laws.OpcodeBits.Statement (.mul rd rs1 rs2) :=
  fun _ => opcode_FA _ _ _ _ _
theorem Laws.OpcodeBits.div (rd rs1 rs2 : RegIdx) : Laws.OpcodeBits.Statement (.div rd rs1 rs2) :=
  fun _ => opcode_FA _ _ _ _ _
theorem Laws.OpcodeBits.lsl (rd rs1 rs2 : RegIdx) : Laws.OpcodeBits.Statement (.lsl rd rs1 rs2) :=
  fun _ => opcode_FS _ _ _ _
theorem Laws.OpcodeBits.asr (rd rs1 rs2 : RegIdx) : Laws.OpcodeBits.Statement (.asr rd rs1 rs2) :=
  fun _ => opcode_FS _ _ _ _
theorem Laws.OpcodeBits.lsr (rd rs1 rs2 : RegIdx) : Laws.OpcodeBits.Statement (.lsr rd rs1 rs2) :=
  fun _ => opcode_FS _ _ _ _
theorem Laws.OpcodeBits.load (rd rs : RegIdx) : Laws.OpcodeBits.Statement (.load rd rs) :=
  fun _ => opcode_FM _ _ _
theorem Laws.OpcodeBits.loadi (rd rs : RegIdx) (imm : BitVec 16) (lhw : Bool) :
    Laws.OpcodeBits.Statement (.loadi rd rs imm lhw) :=
  fun _ => opcode_FL _ _ _ _ _
theorem Laws.OpcodeBits.store (rd rs : RegIdx) : Laws.OpcodeBits.Statement (.store rd rs) :=
  fun _ => opcode_FM _ _ _
theorem Laws.OpcodeBits.jmp (rs : RegIdx) : Laws.OpcodeBits.Statement (.jmp rs) :=
  fun _ => opcode_FJ _ _
theorem Laws.OpcodeBits.jmpi (offset : Int) : Laws.OpcodeBits.Statement (.jmpi offset) :=
  fun _ => opcode_FJI _ _
theorem Laws.OpcodeBits.jmpc (rs : RegIdx) (select : BitVec 4) : Laws.OpcodeBits.Statement (.jmpc rs select) :=
  fun _ => opcode_FJC _ _ _
theorem Laws.OpcodeBits.jmpic (offset : Int) (select : BitVec 4) :
    Laws.OpcodeBits.Statement (.jmpic offset select) :=
  fun _ => opcode_FJIC _ _ _
theorem Laws.OpcodeBits.brk : Laws.OpcodeBits.Statement .brk :=
  fun _ => opcode_alone _

end Sys2Proof
end

