-- ==== Sys2Proof/Laws/Step.lean ====
section
/-! SUPPORT. Everything a step can do, said once (spec/10_state.md R44 to R46, R49). -/

namespace Sys2Proof.Machine

/-- The fetch reads the pc and code memory as they stand at the start of the step (R85). -/
theorem State.beginStep_fetch (s : State) : s.beginStep.fetch = s.code[s.pc.toNat]? := rfl

/-! ### A step under any maps (R6) -/

section AnyMaps

variable {e : OpcodeMap}

theorem stepWith_faulted {s : State} {r : FaultRecord} (h : s.fault = some r) :
    stepWith e s = .fault (.inFaultState r) := by
  simp only [stepWith, h]

theorem stepWith_halted {s : State} (hf : s.fault = none) (hm : s.mode = .halted) : stepWith e s = .next s := by
  simp only [stepWith, hf, hm]

theorem stepWith_outOfBounds {s : State} (hf : s.fault = none) (hm : s.mode = .running)
    (hc : s.code[s.pc.toNat]? = none) : stepWith e s = .next (s.beginStep.raiseFatal .pcOutOfBounds s.pc) := by
  simp only [stepWith, hf, hm, State.beginStep_fetch, hc]

theorem stepWith_fetched {s : State} {w : Word} (h : s.Fetches w) :
    stepWith e s = runWordWith e w s.beginStep.advance := by
  obtain ⟨hm, hf, hc⟩ := h
  simp only [stepWith, hf, hm, State.beginStep_fetch, hc]

theorem stepWith_decoded {s u : State} {w : Word} {i : Instr} (h : s.Fetches w) (hd : decodeWith e w = .ok i)
    (hx : exec i s.beginStep.advance = .next u) : stepWith e s = .next u.endStep := by
  rw [stepWith_fetched h, runWordWith, hd]
  simp only [hx, endOutcome]

theorem stepWith_undecoded {s : State} {w : Word} {d : DecodeError} (h : s.Fetches w) (hd : decodeWith e w = .error d) :
    stepWith e s = .next (s.beginStep.advance.raiseUndecoded d) := by
  rw [stepWith_fetched h, runWordWith, hd]

/-- If a step answers a next state, then one of these four cases holds. -/
theorem stepWith_cases {s t : State} (h : stepWith e s = .next t) :
    s.fault = none ∧
      ((s.mode = .halted ∧ t = s) ∨
        (s.mode = .running ∧ s.code[s.pc.toNat]? = none ∧ t = s.beginStep.raiseFatal .pcOutOfBounds s.pc) ∨
        (∃ w d, s.Fetches w ∧ decodeWith e w = .error d ∧ t = s.beginStep.advance.raiseUndecoded d) ∨
        (∃ w i u, s.Fetches w ∧ decodeWith e w = .ok i ∧ exec i s.beginStep.advance = .next u ∧ t = u.endStep)) := by
  cases hf : s.fault with
  | some r => rw [stepWith_faulted hf] at h; cases h
  | none =>
    refine ⟨rfl, ?_⟩
    cases hm : s.mode with
    | halted =>
      rw [stepWith_halted hf hm] at h
      exact .inl ⟨rfl, (Host.Outcome.next.inj h).symm⟩
    | running =>
      right
      cases hc : s.code[s.pc.toNat]? with
      | none =>
        rw [stepWith_outOfBounds hf hm hc] at h
        exact .inl ⟨rfl, rfl, (Host.Outcome.next.inj h).symm⟩
      | some w =>
        right
        have hw : s.Fetches w := ⟨hm, hf, hc⟩
        cases hd : decodeWith e w with
        | error d =>
          rw [stepWith_undecoded hw hd] at h
          exact .inl ⟨w, d, hw, hd, (Host.Outcome.next.inj h).symm⟩
        | ok i =>
          right
          cases hx : exec i s.beginStep.advance with
          | next u =>
            rw [stepWith_decoded hw hd hx] at h
            exact ⟨w, i, u, hw, hd, hx, (Host.Outcome.next.inj h).symm⟩
          | fault r => cases i <;> cases hx
          | refused r => cases i <;> cases hx

end AnyMaps

/-! ### A step under the reference assignment -/

theorem step_faulted {s : State} {r : FaultRecord} (h : s.fault = some r) : step s = .fault (.inFaultState r) :=
  stepWith_faulted h

theorem step_halted {s : State} (hf : s.fault = none) (hm : s.mode = .halted) : step s = .next s :=
  stepWith_halted hf hm

theorem step_outOfBounds {s : State} (hf : s.fault = none) (hm : s.mode = .running)
    (hc : s.code[s.pc.toNat]? = none) : step s = .next (s.beginStep.raiseFatal .pcOutOfBounds s.pc) :=
  stepWith_outOfBounds hf hm hc

theorem step_fetched {s : State} {w : Word} (h : s.Fetches w) :
    step s = runWordWith .reference w s.beginStep.advance := stepWith_fetched h

theorem step_decoded {s u : State} {w : Word} {i : Instr} (h : s.Fetches w) (hd : decode w = .ok i)
    (hx : exec i s.beginStep.advance = .next u) : step s = .next u.endStep := stepWith_decoded h hd hx

theorem step_undecoded {s : State} {w : Word} {d : DecodeError} (h : s.Fetches w) (hd : decode w = .error d) :
    step s = .next (s.beginStep.advance.raiseUndecoded d) := stepWith_undecoded h hd

/-- If a step answers a next state, then one of these four cases holds. -/
theorem step_cases {s t : State} (h : step s = .next t) :
    s.fault = none ∧
      ((s.mode = .halted ∧ t = s) ∨
        (s.mode = .running ∧ s.code[s.pc.toNat]? = none ∧ t = s.beginStep.raiseFatal .pcOutOfBounds s.pc) ∨
        (∃ w d, s.Fetches w ∧ decode w = .error d ∧ t = s.beginStep.advance.raiseUndecoded d) ∨
        (∃ w i u, s.Fetches w ∧ decode w = .ok i ∧ exec i s.beginStep.advance = .next u ∧ t = u.endStep)) :=
  stepWith_cases h

/-! ### Runs -/

theorem coreWith_reference : coreWith .reference = Sys2Proof.core := rfl

theorem coreWith_run_next {e : OpcodeMap} {s t : State} (h : stepWith e s = .next t) (k : Nat) :
    (coreWith e).run (k + 1) s = (coreWith e).run k t := by
  have q := Host.Core.run.eq_2 (coreWith e) s k
  rw [show (coreWith e).step s = .next t from h] at q
  exact q

theorem coreWith_run_faulted {e : OpcodeMap} {s : State} {r : FaultRecord} (h : s.fault = some r) (k : Nat) :
    (coreWith e).run (k + 1) s = .fault (.inFaultState r) := by
  have q := Host.Core.run.eq_2 (coreWith e) s k
  rw [show (coreWith e).step s = .fault (.inFaultState r) from stepWith_faulted h] at q
  exact q

theorem core_run_next {s t : State} (h : step s = .next t) (k : Nat) :
    Sys2Proof.core.run (k + 1) s = Sys2Proof.core.run k t := coreWith_run_next (e := .reference) h k

theorem core_run_faulted {s : State} {r : FaultRecord} (h : s.fault = some r) (k : Nat) :
    Sys2Proof.core.run (k + 1) s = .fault (.inFaultState r) := coreWith_run_faulted (e := .reference) h k

end Sys2Proof.Machine
end

