-- ==== Sys2Proof/Tests/Slice0.lean ====
section
/-! SUPPORT. Tests: expected values come from spec/95_test_vectors.md (the section is named at each group) or from the
worked examples of the instruction rules; then the witnesses of the statements that have hypotheses. -/

namespace Sys2Proof.Machine

/-! ### Helpers -/

/-- A small running core: the listed registers, the rest 0; the instruction of address 7 is executing (pc is 8). -/
def testState (regs : List (Nat × Word)) : State where
  regs := Vector.ofFn fun i : Fin 32 => (SortedMap.get i.val regs).getD 0
  flags := ⟨false, true, false, false⟩
  code := List.replicate 10 0
  pc := 8
  mode := .running
  atBreakpoint := false
  mem := { Memory.reset with rtcInputs := [⟨59, 1, 2, 3, 4, 5, 6, 7⟩] }
  breakpoints := []
  fault := none
  diags := []
  tickInputs := [false, false]
  draws := 0

/-- The same core about to fetch `w` at address 0, the last of its code, with or without a tick due. -/
def testFetch (w : Word) (tick : Bool) (regs : List (Nat × Word)) : State :=
  { testState regs with code := [w], pc := 0, tickInputs := [tick] }

/-- A view of the next state, if there is one. -/
def after {α : Type} (view : State → α) : Host.Outcome State Fault Refusal → Option α
  | .next t => some (view t)
  | .fault _ => none
  | .refused _ => none

/-! ### WellFormed: an ill-formed term for each check -/

theorem test_wellFormed_refuses_jmpi_above : ¬ (Instr.jmpi 8388608).WellFormed := by decide
theorem test_wellFormed_refuses_jmpi_below : ¬ (Instr.jmpi (-8388609)).WellFormed := by decide
theorem test_wellFormed_refuses_jmpic_above : ¬ (Instr.jmpic 8388608 1).WellFormed := by decide
theorem test_wellFormed_refuses_jmpic_below : ¬ (Instr.jmpic (-8388609) 1).WellFormed := by decide
theorem test_wellFormed_admits_both_ends : (Instr.jmpi 8388607).WellFormed ∧ (Instr.jmpic (-8388608) 15).WellFormed := by
  decide
theorem test_map_refuses_two_equal_opcodes :
    ¬ OpcodeMap.WellFormed ⟨fun _ => 0, OpcodeMap.reference.aluf⟩ :=
  fun h => absurd (h.opc .alu .lsl rfl) (by decide)
theorem test_map_refuses_two_equal_functions :
    ¬ OpcodeMap.WellFormed ⟨OpcodeMap.reference.opc, fun _ => 0⟩ :=
  fun h => absurd (h.aluf .and .or rfl) (by decide)
theorem test_reference_map_is_wellFormed : OpcodeMap.reference.WellFormed where
  opc a b := by cases a <;> cases b <;> decide
  aluf a b := by cases a <;> cases b <;> decide

/-! ### Decoding and encoding: words of 95_test_vectors.md 2.1 and 2.2, one for each constructor -/

theorem test_word_and : decode 0x00010620 = .ok (.and 2 3 4) ∧ encode (.and 2 3 4) = 0x00010620 := by decide
theorem test_word_or : decode 0x00090620 = .ok (.or 2 3 4) ∧ encode (.or 2 3 4) = 0x00090620 := by decide
theorem test_word_nor : decode 0x00110620 = .ok (.nor 2 3 4) ∧ encode (.nor 2 3 4) = 0x00110620 := by decide
theorem test_word_xor : decode 0x00190620 = .ok (.xor 2 3 4) ∧ encode (.xor 2 3 4) = 0x00190620 := by decide
theorem test_word_add : decode 0x00210620 = .ok (.add 2 3 4) ∧ encode (.add 2 3 4) = 0x00210620 := by decide
theorem test_word_sub : decode 0x00294830 = .ok (.sub 3 4 5) ∧ encode (.sub 3 4 5) = 0x00294830 := by decide
theorem test_word_mul : decode 0x00310620 = .ok (.mul 2 3 4) ∧ encode (.mul 2 3 4) = 0x00310620 := by decide
theorem test_word_div : decode 0x00390620 = .ok (.div 2 3 4) ∧ encode (.div 2 3 4) = 0x00390620 := by decide
theorem test_word_lsl : decode 0x00010621 = .ok (.lsl 2 3 4) ∧ encode (.lsl 2 3 4) = 0x00010621 := by decide
theorem test_word_asr : decode 0x00010622 = .ok (.asr 2 3 4) ∧ encode (.asr 2 3 4) = 0x00010622 := by decide
theorem test_word_lsr : decode 0x00010623 = .ok (.lsr 2 3 4) ∧ encode (.lsr 2 3 4) = 0x00010623 := by decide
theorem test_word_load : decode 0x00000624 = .ok (.load 2 3) ∧ encode (.load 2 3) = 0x00000624 := by decide
theorem test_word_loadi_low :
    decode 0x40014025 = .ok (.loadi 2 0 5 true) ∧ encode (.loadi 2 0 5 true) = 0x40014025 := by decide
theorem test_word_loadi_high :
    decode 0x2AF34025 = .ok (.loadi 2 0 0xABCD false) ∧ encode (.loadi 2 0 0xABCD false) = 0x2AF34025 := by decide
theorem test_word_store : decode 0x00000436 = .ok (.store 3 2) ∧ encode (.store 3 2) = 0x00000436 := by decide
theorem test_word_jmp : decode 0x00000057 = .ok (.jmp 5) ∧ encode (.jmp 5) = 0x00000057 := by decide
theorem test_word_jmpi : decode 0x0FFFFFF8 = .ok (.jmpi (-1)) ∧ encode (.jmpi (-1)) = 0x0FFFFFF8 := by decide
theorem test_word_jmpi_ends :
    decode 0x07FFFFF8 = .ok (.jmpi 8388607) ∧ decode 0x08000008 = .ok (.jmpi (-8388608)) := by decide
theorem test_word_jmpc : decode 0x00000A59 = .ok (.jmpc 5 0b0101) ∧ encode (.jmpc 5 0b0101) = 0x00000A59 := by decide
theorem test_word_jmpic :
    decode 0x1FFFFFCA = .ok (.jmpic (-4) 0b0001) ∧ encode (.jmpic (-4) 0b0001) = 0x1FFFFFCA := by decide
theorem test_word_break : decode 0xFFFFFFFB = .ok .brk ∧ sentinelWord .reference = 0x0000000B := by decide
theorem test_word_unused_bits : decode 0xFF208420 = .ok (.add 2 2 2) ∧
    decode 0x7FFFFFF5 = .ok (.loadi 31 31 0xFFFF true) ∧ decode 0xFFFFFFF5 = .ok (.loadi 31 31 0xFFFF true) := by
  decide
theorem test_word_unassigned : decode 0x0000000C = .error (.unknownOpcode 12) ∧
    decode 0x0000000F = .error (.unknownOpcode 15) ∧ decode 0x00400000 = .error (.unknownAluFunc 8) ∧
    decode 0x00F80000 = .error (.unknownAluFunc 31) := by decide
theorem test_decodeTableWord : decodeTableWord 32 0x00380000 = some (.div 0 0 0) ∧ decodeTableWord 32 12 = none := by
  decide

/-! ### ALU: 95_test_vectors.md 2.3 -/

theorem test_and : after (fun t => (t.x 2, t.flags)) (exec (.and 2 3 4) (testState [(3, 0xF0F0F0F0), (4, 0xFF00FF00)]))
    = some (0xF000F000, ⟨false, true, false, false⟩) := by decide
theorem test_or : after (fun t => (t.x 2, t.flags)) (exec (.or 2 3 4) (testState [(3, 0x0F0F0000), (4, 0x0000F0F0)]))
    = some (0x0F0FF0F0, ⟨false, false, false, false⟩) := by decide
theorem test_nor : after (fun t => (t.x 2, t.flags)) (exec (.nor 2 3 4) (testState [(3, 0xFFFFFFFF)]))
    = some (0, ⟨true, false, false, false⟩) := by decide
theorem test_xor : after (fun t => (t.x 2, t.flags)) (exec (.xor 2 3 4) (testState [(3, 0xAAAA5555), (4, 0xFFFF0000)]))
    = some (0x55555555, ⟨false, false, false, false⟩) := by decide
theorem test_add_signed_overflow :
    after (fun t => (t.x 2, t.flags)) (exec (.add 2 3 1) (testState [(3, 0x7FFFFFFF)]))
      = some (0x80000000, ⟨false, true, false, true⟩) := by decide
theorem test_add_carry : after (fun t => (t.x 3, t.flags)) (exec (.add 3 3 1) (testState [(3, 0xFFFFFFFF)]))
    = some (0, ⟨true, false, true, false⟩) := by decide
theorem test_sub_borrow : after (fun t => (t.x 2, t.flags)) (exec (.sub 2 0 1) (testState []))
    = some (0xFFFFFFFF, ⟨false, true, true, false⟩) := by decide
theorem test_sub_overflow : after (fun t => (t.x 2, t.flags)) (exec (.sub 2 3 4) (testState [(4, 0x80000000)]))
    = some (0x80000000, ⟨false, true, true, true⟩) := by decide
theorem test_mul_carry_only :
    after (fun t => (t.x 2, t.flags)) (exec (.mul 2 3 4) (testState [(3, 0xFFFFFFFE), (4, 3)]))
      = some (0xFFFFFFFA, ⟨false, true, true, false⟩) := by decide
theorem test_mul_overflow_only :
    after (fun t => (t.x 2, t.flags)) (exec (.mul 2 3 4) (testState [(3, 0x7FFFFFFF), (4, 2)]))
      = some (0xFFFFFFFE, ⟨false, true, false, true⟩) := by decide
theorem test_div_unsigned :
    after (fun t => (t.x 2, t.flags)) (exec (.div 2 3 4) (testState [(3, 0x80000000), (4, 0xFFFFFFFF)]))
      = some (0, ⟨true, false, false, false⟩) := by decide
theorem test_div_by_zero :
    after (fun t => (t.x 2, t.fault, t.pc, t.mode)) (exec (.div 2 3 0) (testState [(2, 9), (3, 5)]))
      = some (9, some ⟨.divisionByZero, 7⟩, 8, .running) := by decide
theorem test_write_to_hardwired :
    after (fun t => (t.x 0, t.regs[0], t.flags)) (exec (.add 0 1 1) (testState []))
      = some (0, 2, ⟨false, false, false, false⟩) := by decide

/-! ### Shifts: 95_test_vectors.md 2.4 -/

theorem test_lsl : after (fun t => t.x 2) (exec (.lsl 2 3 4) (testState [(3, 0x12345678), (4, 4)]))
    = some 0x23456780 := by decide
theorem test_lsl_width : after (fun t => (t.x 2, t.flags)) (exec (.lsl 2 3 4) (testState [(3, 0x12345678), (4, 32)]))
    = some (0x12345678, ⟨false, true, false, false⟩) := by decide
theorem test_asr : after (fun t => t.x 2) (exec (.asr 2 3 4) (testState [(3, 0x80000000), (4, 31)]))
    = some 0xFFFFFFFF := by decide
theorem test_asr_positive : after (fun t => t.x 2) (exec (.asr 2 3 4) (testState [(3, 0x7FFFFFFF), (4, 31)]))
    = some 0 := by decide
theorem test_lsr : after (fun t => t.x 2) (exec (.lsr 2 3 4) (testState [(3, 0x80000000), (4, 31)])) = some 1 := by
  decide
theorem test_lsr_masked : after (fun t => t.x 2) (exec (.lsr 2 3 4) (testState [(3, 0x80000000), (4, 0xFFFFFFE1)]))
    = some 0x40000000 := by decide

/-! ### LOAD, LOADI, STORE: 95_test_vectors.md 2.5 -/

theorem test_load_same_register :
    after (fun t => (t.x 3, t.diags))
      (exec (.load 3 3) { testState [(3, 100)] with mem := Memory.reset.write 100 7 }) = some (7, []) := by decide
theorem test_load_unwritten :
    after (fun t => (t.x 3, t.diags)) (exec (.load 3 2) (testState [(2, 50), (3, 1)]))
      = some (0, [.uninitializedRead 50]) := by decide
theorem test_loadi_high : after (fun t => t.x 5) (exec (.loadi 5 5 1 false) (testState [(5, 0xFFFF0000)])) = some 0 := by
  decide
theorem test_loadi_low_zero_extends : after (fun t => t.x 2) (exec (.loadi 2 1 0xFFFF true) (testState []))
    = some 0x00010000 := by decide
theorem test_store_top_of_memory :
    after (fun t => (t.mem.read 0xFFFFFFFF, t.mem.isWritten 0xFFFFFFFF, t.mem.extent))
      (exec (.store 3 2) (testState [(3, 0xFFFFFFFF), (2, 4)])) = some (4, true, 0x100000000) := by decide
theorem test_store_trigger :
    after (fun t => (t.mem.cells, t.mem.rtcInputs)) (exec (.store 9 1) (testState [(9, 1025)]))
      = some ([(1025, 1), (1026, 59), (1027, 1), (1028, 2), (1029, 3), (1030, 4), (1031, 5), (1032, 6), (1033, 7)],
        []) := by decide

/-- Months counted from 1, weekdays numbered from Monday as 1; one of the encodings R79 leaves open. -/
def testClockEncoding : RtcEncoding where
  monthBase := 1
  weekday
    | .monday => 1 | .tuesday => 2 | .wednesday => 3 | .thursday => 4 | .friday => 5 | .saturday => 6 | .sunday => 7

/-- 2024, the twelfth month, day 31, 23:59:60 on a Tuesday. -/
def testClock : ClockTime := ⟨60, 59, 23, 31, 11, 124, .tuesday, 0⟩

theorem test_snapshot_of_clock :
    Snapshot.ofClock testClockEncoding testClock = ⟨0, 59, 23, 31, 12, 2024, 2, 0⟩ := by decide

/-! ### Jumps: 95_test_vectors.md 2.6 -/

theorem test_jmp : after (fun t => t.pc) (exec (.jmp 5) (testState [(5, 3)])) = some 3 := by decide
theorem test_jmpi_self : after (fun t => t.pc) (exec (.jmpi (-1)) (testState [])) = some 7 := by decide
theorem test_jmpi_wraps :
    after (fun t => t.pc) (exec (.jmpi (-8388608)) { testState [] with pc := 1 }) = some 0xFF800001 := by decide
theorem test_jmpc_not_taken : after (fun t => t.pc) (exec (.jmpc 5 0b0101) (testState [])) = some 8 := by decide
theorem test_jmpc_taken : after (fun t => t.pc) (exec (.jmpc 5 0b0010) (testState [(5, 20)])) = some 20 := by decide
theorem test_jmpic_taken :
    after (fun t => t.pc) (exec (.jmpic (-4) 0b1000)
      { testState [] with flags := ⟨false, false, false, true⟩, pc := 6 }) = some 2 := by decide
theorem test_jmpic_not_taken : after (fun t => t.pc) (exec (.jmpic (-4) 0b0001) (testState [])) = some 8 := by decide

/-! ### BREAK and breakpoints: 95_test_vectors.md 2.7, programs P4 and P10 -/

/-- Program P4 with a breakpoint added at 1, the pc there. -/
def testBreak : State :=
  { testState [] with code := [0x40014025, 0x00208420, 0x00100030], pc := 1 }

theorem test_add_breakpoint :
    ((testBreak.addBreakpoint .reference 1).code, (testBreak.addBreakpoint .reference 1).breakpoints)
      = ([0x40014025, 0x0000000B, 0x00100030], [(1, ⟨0x00208420, true⟩)]) ∧
    testBreak.addBreakpoint .reference 3 = testBreak := by decide
theorem test_break_restores :
    after (fun t => (t.pc, t.code, t.breakpoints)) (step (testBreak.addBreakpoint .reference 1))
      = some (1, testBreak.code, [(1, ⟨0x00208420, false⟩)]) := by decide
theorem test_break_reports :
    after (fun t => (t.atBreakpoint, t.mode, t.diags)) (step (testBreak.addBreakpoint .reference 1))
      = some (true, .running, [.breakpointHit 1]) := by decide
theorem test_break_without_record :
    after (fun t => (t.pc, t.fault, t.diags, t.atBreakpoint)) (step (testFetch 0x0000000B false []))
      = some (0, some ⟨.breakWithoutRecord, 0⟩, [.breakpointHit 0], false) := by decide
/-- Another assignment: every opcode value of the reference subtracted from 15, so that BREAK is 4. -/
def testOtherMap : OpcodeMap := { OpcodeMap.reference with opc := fun o => 15 - OpcodeMap.reference.opc o }
theorem test_sentinel_of_another_map : sentinelWord testOtherMap = 4 := by decide
theorem test_break_under_another_map :
    after (fun t => (t.atBreakpoint, t.code)) (stepWith testOtherMap (testBreak.addBreakpoint testOtherMap 1))
      = some (true, testBreak.code) := by decide
theorem test_remove_breakpoint :
    (testBreak.addBreakpoint .reference 1).removeBreakpoint 1 = testBreak ∧ testBreak.removeBreakpoint 2 = testBreak := by decide

/-! ### The step: 95_test_vectors.md 2.8, programs P6 and P11 -/

theorem test_step_out_of_bounds_ticks :
    after (fun t => (t.fault, t.mem.read 1024)) (step { testFetch 0 true [] with code := [] })
      = some (some ⟨.pcOutOfBounds, 0⟩, 1) := by decide
theorem test_step_halts :
    after (fun t => (t.x 2, t.mode, t.pc)) (step (testFetch 0x00084020 false [])) = some (1, .halted, 1) := by decide
theorem test_step_load_sees_tick :
    after (fun t => t.x 3) (step (testFetch 0x00000434 true [(2, 1024)])) = some 1 := by decide
theorem test_step_store_overwrites_tick :
    after (fun t => (t.mem.read 1024, t.mem.isWritten 1024)) (step (testFetch 0x00000026 true [(2, 1024)]))
      = some (0, true) := by decide
theorem test_step_unknown_opcode :
    after (fun t => (t.fault, t.pc, t.mem.read 1024)) (step (testFetch 0x0000000C true []))
      = some (some ⟨.unknownOpcode 12, 0⟩, 1, 1) := by decide
theorem test_step_unknown_function :
    after (fun t => (t.fault, t.pc)) (step (testFetch 0x00400000 false []))
      = some (some ⟨.unknownAluFunc 8, 0⟩, 1) := by decide
theorem test_step_jump_past_the_end :
    after (fun t => (t.pc, t.mode, t.fault)) (step (testFetch 0x00000058 false [])) = some (6, .running, none) := by
  decide

/-! ### Loading: R242, R243 -/

theorem test_little_endian : wordsOfBytes [0x25, 0x40, 0x01, 0x40] = some [0x40014025] ∧
    wordsOfBytes [0x25, 0x40, 0x01] = none := by decide
theorem test_ram_file : ∃ m, Memory.ofFile (some (.contents [1, 0, 0, 0, 0, 0, 0, 0])) = .next m ∧
    m = ⟨[(0, 1)], [0, 1], 2, [], 0⟩ := ⟨_, rfl, by decide⟩
theorem test_malformed_ram_file :
    State.construct (.contents [1, 2, 3, 4]) (some (.contents [1])) = .fault .malformedInputFile := rfl

/-! ### The instruction placed for the host is the one the first step after reset runs -/

theorem test_withFetchWord_runs :
    after (fun t => (t.pc, t.code)) (step (State.reset.withFetchWord 32 0x00000058)) = some (6, [0x00000058]) := by
  decide
theorem test_withFetchWord_div :
    after (fun t => (t.fault.isSome, t.pc)) (step (State.reset.withFetchWord 32 0x00380000)) = some (true, 1) := by decide

/-! ### Witnesses: the hypotheses of each statement that has some are met together -/

/-- A core that keeps the invariant with RAM, an enabled record at 1 and a disabled one at 2. -/
def testRich : State :=
  { testState [(3, 100), (9, 1025)] with
    code := [0x40014025, 0x0000000B, 0x00100030], pc := 0
    mem := { Memory.reset with cells := [(100, 7)], written := [50, 100], extent := 101 }
    breakpoints := [(1, ⟨0x00208420, true⟩), (2, ⟨0x00100030, false⟩)] }

theorem test_witness_RegisterKeepsItsValue :
    2 ≤ (2 : RegIdx).toNat ∧ ∀ p ∈ [((0 : RegIdx), (5 : Word)), (31, 6)], p.1 ≠ 2 := by simp
theorem test_witness_OnlyTheDestination :
    (∃ t, exec (.div 2 3 0) (testState [(3, 5)]) = .next t) ∧ (testState [(3, 5)]).x 0 = 0 :=
  ⟨⟨_, rfl⟩, by decide⟩
theorem test_witness_AddSubMulDiv :
    (testState [(3, 0x80000000), (4, 1)]).x 3 = 0x80000000 ∧ (testState [(3, 0x80000000), (4, 1)]).x 4 = 1 ∧
    (1 : Word) ≠ 0 ∧ (testState []).x 0 = 0 := by decide
theorem test_witness_FlagsAreWritten :
    (∃ t, exec (.store 3 2) (testState []) = .next t) ∧ (∃ t, exec (.add 2 3 4) (testState []) = .next t) ∧
    (∃ t, exec (.div 2 3 1) (testState []) = .next t) ∧ (testState []).x 1 ≠ 0 ∧
    isAlu (.store 3 2) = false ∧ isAlu (.add 2 3 4) = true ∧ (∀ rs f, Instr.store 3 2 ≠ .jmpc rs f) ∧
    ∀ o f, Instr.store 3 2 ≠ .jmpic o f :=
  ⟨⟨_, rfl⟩, ⟨_, rfl⟩, ⟨_, rfl⟩, by decide, rfl, rfl, fun _ _ h => (by cases h), fun _ _ h => (by cases h)⟩
theorem test_witness_Shifts : ((testState [(4, 33)]).x 4).toNat % 32 = 1 := by decide
theorem test_witness_MemWrite :
    (1034 : Word) ≠ 1025 ∧ ¬ ((1025 : Word) = 1025 ∧ (1 : Word) ≠ 0 ∧ 1026 ≤ (1034 : Word).toNat ∧
      (1034 : Word).toNat ≤ 1033) ∧ Memory.reset.wf ∧ Memory.reset.isWritten 1034 = false := by decide
theorem test_witness_Load :
    testRich.x 3 = 100 ∧ testRich.mem.isWritten 100 = true ∧ testRich.mem.isWritten 0 = false ∧ testRich.mem.wf := by
  decide
theorem test_witness_LoadiIdiom : 2 ≤ (2 : RegIdx).toNat := by decide
theorem test_witness_Store :
    (testRich.x 3 = 100 ∧ (100 : Word) ≠ 1025) ∧ testRich.x 9 = 1025 ∧ testRich.x 0 = 0 := by decide
theorem test_witness_StoreToTheTrigger : testRich.x 9 = 1025 ∧ testRich.x 1 ≠ 0 := by decide
theorem test_witness_Written : (∃ t, step testRich = .next t) ∧ testRich.mem.isWritten 50 = true :=
  ⟨⟨_, rfl⟩, by decide⟩
theorem test_witness_SnapshotFollows :
    ({ testRich with mem := { testRich.mem with rtcInputs := [Snapshot.ofClock testClockEncoding testClock] } }).x 9
      = 1025 ∧ testRich.x 1 ≠ 0 := by decide
theorem test_witness_RamBuffer :
    testRich.mem.wf ∧ testRich.mem.isWritten 50 = true ∧ (∃ t, exec (.load 2 3) testRich = .next t) ∧
    ∃ t, exec (.store 9 1) testRich = .next t := ⟨by decide, by decide, ⟨_, rfl⟩, ⟨_, rfl⟩⟩
theorem test_witness_RamBuffer_run :
    ∃ t, Sys2Proof.core.run 1 (testFetch 0x00000624 false [(3, 1)]) = .next t ∧ t.IsRamBuffer [0, 0] :=
  ⟨_, rfl, by decide⟩
theorem test_witness_Jumps :
    SomeSelectedFlag (testState []).flags 0b0010 ∧ ¬ SomeSelectedFlag (testState []).flags 0b1101 := by
  unfold SomeSelectedFlag; decide
theorem test_witness_JumpTargets_register :
    ((testFetch 0x00000057 false [(5, 1)]).JumpsTo (.jmp 5) 1 ∧
      (testFetch 0x00000057 false [(5, 1)]).Fetches (encode (.jmp 5)) ∧ (1 : Word).toNat = [(0 : Word)].length) ∧
    ((testFetch 0x00000057 false []).JumpsTo (.jmp 5) 0 ∧
      (testFetch 0x00000057 false []).Fetches (encode (.jmp 5))) ∧
    ((testFetch 0x00000459 false [(5, 2)]).JumpsTo (.jmpc 5 2) 2 ∧
      (testFetch 0x00000459 false [(5, 2)]).Fetches (encode (.jmpc 5 2))) ∧
    ((testFetch 0x00000259 false []).JumpsTo (.jmpc 5 1) 1 ∧
      (testFetch 0x00000259 false []).Fetches (encode (.jmpc 5 1))) :=
  ⟨⟨.jmp 5, by decide, rfl⟩, ⟨.jmp 5, by decide⟩, ⟨.jmpcTaken 5 2 (by unfold SomeSelectedFlag; decide), by decide⟩,
    .jmpcNotTaken 5 1 (by unfold SomeSelectedFlag; decide), by decide⟩
theorem test_witness_JumpTargets_relative :
    ((testFetch 0x00000008 false []).JumpsTo (.jmpi 0) 1 ∧ (testFetch 0x00000008 false []).Fetches (encode (.jmpi 0))) ∧
    ((testFetch 0x0FFFFFE8 false []).JumpsTo (.jmpi (-2)) 0xFFFFFFFF ∧
      (testFetch 0x0FFFFFE8 false []).Fetches (encode (.jmpi (-2)))) ∧
    ((testFetch 0x2FFFFFFA false []).JumpsTo (.jmpic (-1) 2) 0 ∧
      (testFetch 0x2FFFFFFA false []).Fetches (encode (.jmpic (-1) 2))) ∧
    ((testFetch 0x1FFFFFFA false []).JumpsTo (.jmpic (-1) 1) 1 ∧
      (testFetch 0x1FFFFFFA false []).Fetches (encode (.jmpic (-1) 1))) :=
  ⟨⟨.jmpi 0, by decide⟩, ⟨.jmpi 0xFFFFFE, by decide⟩,
    ⟨.jmpicTaken 0xFFFFFF 2 (by unfold SomeSelectedFlag; decide), by decide⟩,
    .jmpicNotTaken 0xFFFFFF 1 (by unfold SomeSelectedFlag; decide), by decide⟩
theorem test_witness_SelfJump : (testFetch 0x0FFFFFF8 true []).Fetches (encode (.jmpi (-1))) := by decide
theorem test_witness_Break :
    ({ testRich with pc := 2 }).breakpointAt 1 = some ⟨0x00208420, true⟩ ∧
    ({ testRich with pc := 3 }).breakpointAt 2 = some ⟨0x00100030, false⟩ ∧ testRich.breakpointAt 0 = none := by decide
theorem test_witness_Sentinel :
    OpcodeMap.reference.WellFormed ∧ ((0 : Word).toNat < testRich.code.length ∧ testRich.breakpointAt 0 = none) ∧
    (0xFFFFFFFB : Word).extractLsb' 0 4 = OpcodeMap.reference.opc .brk :=
  ⟨test_reference_map_is_wellFormed, by decide, by decide⟩
theorem test_witness_AddBreakpoint :
    testRich.code.length ≤ (3 : Word).toNat ∧ testRich.breakpointAt 1 = some ⟨0x00208420, true⟩ ∧
    (testRich.code[(2 : Word).toNat]? = some 0x00100030 ∧ testRich.breakpointAt 2 = some ⟨0x00100030, false⟩) ∧
    (testRich.code[(0 : Word).toNat]? = some 0x40014025 ∧ testRich.breakpointAt 0 = none) := by decide
theorem test_witness_RemoveBreakpoint :
    testRich.breakpointAt 0 = none ∧ testRich.breakpointAt 1 = some ⟨0x00208420, true⟩ ∧
    testRich.breakpointAt 2 = some ⟨0x00100030, false⟩ := by decide
theorem test_witness_RemoveUndoesAdd : testRich.Inv .reference ∧ testRich.breakpointAt 0 = none := by decide
theorem test_witness_BreakpointSession :
    OpcodeMap.reference.WellFormed ∧
    (testRich.Inv .reference ∧ testRich.Fetches 0x40014025 ∧ testRich.breakpointAt testRich.pc = none) :=
  ⟨test_reference_map_is_wellFormed, by decide⟩
theorem test_witness_Listing : testRich.Inv .reference ∧ testRich.IsBreakpointListing [(2, false), (1, true)] := by decide
theorem test_witness_DecodeInvertsEncode :
    OpcodeMap.reference.WellFormed ∧ (Instr.jmpic (-8388608) 15).WellFormed :=
  ⟨test_reference_map_is_wellFormed, by decide⟩
theorem test_witness_EncodeInvertsDecode : decode 0xFFFFFFF5 = .ok (.loadi 31 31 0xFFFF true) := by decide
theorem test_witness_UnusedBits :
    (0x00208420 : Word) &&& usedBits ((0x00208420 : Word).extractLsb' 0 4)
      = 0xFF208420 &&& usedBits ((0x00208420 : Word).extractLsb' 0 4) := by decide
theorem test_witness_StepRuns :
    (testFetch 0x00210620 false []).Fetches 0x00210620 ∧ decode 0x00210620 = .ok (.add 2 3 4) := by decide
theorem test_witness_Halted : ({ testState [] with mode := .halted }).mode = .halted ∧ (testState []).fault = none := by
  decide
theorem test_witness_FaultState :
    ({ testState [] with fault := some ⟨.divisionByZero, 7⟩ }).fault = some ⟨.divisionByZero, 7⟩ := by decide
theorem test_witness_PcOutOfBounds :
    ({ testState [] with pc := 10 }).mode = .running ∧ (testState []).fault = none ∧
    ({ testState [] with pc := 10 }).code.length ≤ ({ testState [] with pc := 10 }).pc.toNat := by decide
theorem test_witness_Unassigned :
    (testFetch 0x0000000C true []).Fetches 0x0000000C ∧ 12 ≤ ((0x0000000C : Word).extractLsb' 0 4).toNat ∧
    (testFetch 0x00400000 true []).Fetches 0x00400000 ∧ (0x00400000 : Word).extractLsb' 0 4 = 0 ∧
    8 ≤ ((0x00400000 : Word).extractLsb' 19 5).toNat := by decide
theorem test_witness_EnteringTheFaultState :
    (testFetch 0x0000000C true []).fault = none ∧
    ∃ t, step (testFetch 0x0000000C true []) = .next t ∧ t.fault ≠ none := ⟨by decide, _, rfl, by decide⟩
theorem test_witness_Tick :
    (testFetch 0x00000434 true [(2, 1024)]).Fetches (encode (.load 3 2)) ∧
    (testFetch 0x00000434 true [(2, 1024)]).tickNow = true ∧ (testFetch 0 true [(2, 1024)]).x 2 = 1024 ∧
    (testFetch 0x00000026 false [(2, 1024)]).Fetches (encode (.store 2 0)) ∧
    (testFetch 0x00000058 true []).Fetches (encode (.jmpi 5)) := by decide
theorem test_witness_HaltsExactly :
    (testFetch 0x00084020 false []).mode = .running ∧ (∃ t, step (testFetch 0x00084020 false []) = .next t) ∧
    ∃ t, step { testState [] with mode := .halted } = .next t := ⟨by decide, ⟨_, rfl⟩, ⟨_, rfl⟩⟩
theorem test_witness_OnlyBreakWritesCode :
    (∃ t, step (testFetch 0x00084020 false []) = .next t) ∧
    (testFetch 0x00084020 false []).code[(testFetch 0x00084020 false []).pc.toNat]? = some 0x00084020 ∧
    (0x00084020 : Word).extractLsb' 0 4 ≠ 0xB := ⟨⟨_, rfl⟩, by decide⟩
theorem test_witness_Execute :
    ∃ t, executeFor .reference 1 (testFetch 0x00084020 false []) = .next t ∧ t.stopsExecute = true := ⟨_, rfl, by decide⟩
theorem test_witness_ProgramFile : [1, 2, 3, (4 : Byte)].length % 4 = 0 ∧ [1, 2, (3 : Byte)].length % 4 ≠ 0 := by decide
theorem test_witness_RamFile : wordsOfBytes [1, 0, 0, 0] = some [1] ∧ wordsOfBytes [] = some [] := by decide
theorem test_witness_MalformedFiles : InputFile.Malformed .unreadable ∧ InputFile.Malformed (.contents [1, 2, 3]) :=
  ⟨.unreadable, .length _ (by decide)⟩
theorem test_witness_Invariant : testRich.Inv .reference ∧ ∃ t, step testRich = .next t := ⟨by decide, ⟨_, rfl⟩⟩
theorem test_witness_Constructed :
    ∃ s, State.construct (.contents [1, 2, 3, 4]) (some (.contents [1, 0, 0, 0])) = .next s := ⟨_, rfl⟩
theorem test_witness_HiddenState :
    SameForPrograms testRich
      { testRich with regs := testRich.regs.set 0 7, diags := [.breakpointHit 0],
                      mem := { testRich.mem with extent := 5000, written := [50, 60, 100] } } ∧
    ∃ t, step testRich = .next t :=
  ⟨⟨by decide, rfl, rfl, rfl, rfl, rfl, rfl, rfl, rfl, rfl, rfl, rfl, rfl⟩, ⟨_, rfl⟩⟩

end Sys2Proof.Machine
end

/-! ## The scope's open parameters: the clock snapshot (spec/00_scope.md R6; spec/20_memory.md R77, R79 to R81) -/

namespace Sys2Proof.Machine

/-! ### The snapshot's stores -/

@[simp] theorem Memory.rtcInputs_storeSnapshot (m : Memory) (t : Snapshot) :
    (m.storeSnapshot t).rtcInputs = m.rtcInputs := rfl

/-- Where each field of a snapshot is read (R77, R81). -/
theorem Memory.read_storeSnapshot_fields (m : Memory) (t : Snapshot) :
    ((m.storeSnapshot t).read 1026).toNat = t.sec.val ∧ (m.storeSnapshot t).read 1027 = t.min ∧
    (m.storeSnapshot t).read 1028 = t.hour ∧ (m.storeSnapshot t).read 1029 = t.mday ∧
    (m.storeSnapshot t).read 1030 = t.mon ∧ (m.storeSnapshot t).read 1031 = t.year ∧
    (m.storeSnapshot t).read 1032 = t.wday ∧ (m.storeSnapshot t).read 1033 = t.extra := by
  have hsec : t.sec.val < 2 ^ 32 := by omega
  simpa [Memory.read_storeSnapshot] using hsec

/-! ### The capture -/

/-- The snapshot drawn is the first of the queue, when one is ready (R77; log entry 5). -/
theorem Memory.nextSnapshot_of_cons {m : Memory} {t : Snapshot} {rest : List Snapshot}
    (h : m.rtcInputs = t :: rest) : m.nextSnapshot = t := by
  simp only [Memory.nextSnapshot, h]

/-- A non-zero write to the trigger address: the raw store, one draw from the clock inputs, then the snapshot's stores
(R64, R77). -/
theorem Memory.write_trigger (m : Memory) {v : Word} (hv : v ≠ 0) :
    m.write Config.rtcTriggerAddr v =
      { m.rawStore Config.rtcTriggerAddr v with
        rtcInputs := m.rtcInputs.tail, rtcDraws := m.rtcDraws + 1 }.storeSnapshot m.nextSnapshot := by
  rw [Memory.write_eq, if_pos rfl, Memory.captureRtc, if_neg hv]
  rfl

/-- With a snapshot ready, a non-zero write to the trigger address takes it off the queue and stores it. -/
theorem Memory.write_trigger_of_cons {m : Memory} {t : Snapshot} {rest : List Snapshot} {v : Word} (hv : v ≠ 0)
    (h : m.rtcInputs = t :: rest) :
    ∃ base : Memory, base.rtcInputs = rest ∧ m.write Config.rtcTriggerAddr v = base.storeSnapshot t := by
  refine ⟨{ m.rawStore Config.rtcTriggerAddr v with
    rtcInputs := m.rtcInputs.tail, rtcDraws := m.rtcDraws + 1 }, ?_, ?_⟩
  · rw [h, List.tail_cons]
  · rw [Memory.write_trigger m hv, Memory.nextSnapshot_of_cons h]

/-! ### The month -/

/-- The month's number fits a word, whatever the base: it is at most 12 (R79). -/
theorem Snapshot.toNat_ofClock_mon (e : RtcEncoding) (c : ClockTime) :
    (Snapshot.ofClock e c).mon.toNat = e.monthBase.val + c.month.val := by
  rw [Snapshot.ofClock_mon, BitVec.toNat_ofNat]
  exact Nat.mod_eq_of_lt (by omega)

/-- Settles O16: the STORE is a write to the trigger, whose capture takes the snapshot of the queue's head, and each
field of that snapshot is read back where it is stored. -/
theorem snapshotFollowsTheClockEncodings : Obligations.SnapshotFollowsTheClockEncodings := by
  intro e c rest rd rs s haddr hval hqueue
  obtain ⟨base, hrest, hmem⟩ := Memory.write_trigger_of_cons hval hqueue
  obtain ⟨hsec, hmin, hhour, hmday, hmon, hyear, hwday, hextra⟩ :=
    Memory.read_storeSnapshot_fields base (Snapshot.ofClock e c)
  refine ⟨_, exec_store s rd rs, ?_⟩
  rw [haddr, hmem, Memory.rtcInputs_storeSnapshot, hsec, hmon]
  exact ⟨hrest, Snapshot.ofClock_sec e c, hmin, hhour, hmday, Snapshot.toNat_ofClock_mon e c, hyear, hwday, hextra⟩

end Sys2Proof.Machine

/-! ## The core's state and the step (spec/10_state.md) -/

namespace Sys2Proof.Machine

/-! ### What an instruction can do to the state -/

/-- Every arm of `exec` answers a next state (R44). -/
theorem exec_eq_next (i : Instr) (s : State) : ∃ t : State, exec i s = .next t := by
  cases i <;> exact ⟨_, rfl⟩

/-- The shapes of what an instruction leaves, one for each way an arm of `exec` ends: the frame facts below are read
off from it (R25, R28, R34). -/
inductive ExecEffect (s : State) : Instr → State → Prop
  | alu {i : Instr} {rd : RegIdx} (q : AluResult) (hi : isAlu i = true) (hd : destination i = some rd) :
      ExecEffect s i (s.finishAlu rd q)
  | divByZero (rd rs1 rs2 : RegIdx) : ExecEffect s (.div rd rs1 rs2) (s.raiseAluFault .divisionByZero)
  | register {i : Instr} {rd : RegIdx} (v : Word) (hi : isAlu i = false) (hd : destination i = some rd) :
      ExecEffect s i (s.setX rd v)
  | load (rd rs : RegIdx) (v : Word) : ExecEffect s (.load rd rs) ((s.noteRead (s.x rs)).setX rd v)
  | store (rd rs : RegIdx) (m : Memory) : ExecEffect s (.store rd rs) { s with mem := m }
  | jump {i : Instr} (target : Word) (hi : isAlu i = false) : ExecEffect s i { s with pc := target }
  | breakTaken (d : List Diag) (saved : Word) (table : List (Nat × Breakpoint)) :
      ExecEffect s .brk { s with
        pc := s.instrAddr, diags := d, code := s.code.set s.instrAddr.toNat saved
        breakpoints := table, atBreakpoint := true }
  | breakUnrecorded (d : List Diag) (r : FaultRecord) :
      ExecEffect s .brk { s with pc := s.instrAddr, diags := d, fault := some r }

theorem exec_effect {i : Instr} {s t : State} (h : exec i s = .next t) : ExecEffect s i t := by
  cases i with
  | and | or | nor | xor | add | sub | mul => cases h; exact .alu _ rfl rfl
  | div rd rs1 rs2 =>
    rw [exec_div] at h
    split_ifs at h <;> cases h
    · exact .divByZero rd rs1 rs2
    · exact .alu _ rfl rfl
  | lsl | asr | lsr | loadi => cases h; exact .register _ rfl rfl
  | load rd rs => cases h; exact .load rd rs _
  | store rd rs => cases h; exact .store rd rs _
  | jmp | jmpi | jmpc | jmpic => cases h; exact .jump _ rfl
  | brk =>
    obtain ⟨saved, -, hb⟩ | ⟨-, hb⟩ := exec_brk_cases s <;> cases hb.symm.trans h
    · exact .breakTaken _ saved _
    · exact .breakUnrecorded _ _

section Frames

variable {i : Instr} {s t : State}

/-- Every word of the backing array but the destination's stays (R25). -/
theorem ExecEffect.getElem_regs (e : ExecEffect s i t) (k : Nat) (hk : k < 32)
    (hne : ∀ rd, destination i = some rd → k ≠ rd.toNat) : t.regs[k] = s.regs[k] := by
  cases e with
  | alu q hi hd => exact Vector.getElem_set_ne (BitVec.isLt _) hk (hne _ hd).symm
  | register v hi hd => exact Vector.getElem_set_ne (BitVec.isLt _) hk (hne _ hd).symm
  | load rd rs v => exact Vector.getElem_set_ne rd.isLt hk (hne rd rfl).symm
  | divByZero | store | jump | breakTaken | breakUnrecorded => rfl

/-- No instruction outside the ALU touches a flag (R28). -/
theorem ExecEffect.flags_of_not_alu (e : ExecEffect s i t) (hi : isAlu i = false) : t.flags = s.flags := by
  cases e with
  | alu q halu hd => simp [hi] at halu
  | divByZero => simp [isAlu] at hi
  | register | load | store | jump | breakTaken | breakUnrecorded => rfl

/-- No instruction changes the run mode: only the end of the step does (R46). -/
theorem ExecEffect.mode_eq (e : ExecEffect s i t) : t.mode = s.mode := by
  cases e <;> rfl

/-- Only BREAK writes code memory (R34). -/
theorem ExecEffect.code_of_ne_brk (e : ExecEffect s i t) (hi : i ≠ .brk) : t.code = s.code := by
  cases e with
  | breakTaken => exact absurd rfl hi
  | alu | divByZero | register | load | store | jump | breakUnrecorded => rfl

/-- Whatever is written in code memory is one word, at the instruction's own address (R190). -/
theorem ExecEffect.code_eq_or_set (e : ExecEffect s i t) :
    t.code = s.code ∨ ∃ w, t.code = s.code.set s.instrAddr.toNat w := by
  cases e with
  | breakTaken d saved table => exact .inr ⟨saved, rfl⟩
  | alu | divByZero | register | load | store | jump | breakUnrecorded => exact .inl rfl

end Frames

/-! ### A word that does not decode, and the address of the instruction -/

section Undecoded

variable (s : State) (d : DecodeError)

@[simp] theorem State.raiseUndecoded_code : (s.raiseUndecoded d).code = s.code := by cases d <;> rfl
@[simp] theorem State.raiseUndecoded_mode : (s.raiseUndecoded d).mode = s.mode := by cases d <;> rfl
theorem State.raiseUndecoded_fault_ne_none : (s.raiseUndecoded d).fault ≠ none := by
  cases d <;> exact Option.some_ne_none _

end Undecoded

/-- During the instruction, its address is the pc that the step fetched from (R36). -/
@[simp] theorem State.instrAddr_advance (s : State) : s.advance.instrAddr = s.pc :=
  add_sub_cancel_right s.pc 1

theorem opcodeOf_of_decodeAlu {e : OpcodeMap} {w : Word} {i : Instr} (h : decodeAlu e w = .ok i) :
    opcodeOf i = .alu := by
  unfold decodeAlu at h
  iterate 8
    obtain ⟨-, h⟩ | ⟨-, h⟩ := ite_eq_iff.1 h
    · cases h; rfl
  cases h

/-- The opcode of what a word decodes to is the word's own (R110), under any maps. -/
theorem opcodeField_of_decodeWith {e : OpcodeMap} {w : Word} {i : Instr} (h : decodeWith e w = .ok i) :
    opcodeField w = e.opc (opcodeOf i) := by
  unfold decodeWith at h
  obtain ⟨hop, h⟩ | ⟨-, h⟩ := ite_eq_iff.1 h
  · rw [opcodeOf_of_decodeAlu h, hop]
  iterate 11
    obtain ⟨hop, h⟩ | ⟨-, h⟩ := ite_eq_iff.1 h
    · cases h; exact hop
  cases h

/-! ### States that no program can tell apart -/

/-- Two memories that no program can tell apart: they agree in all but the `written` set and the extent. -/
structure SameMemoryForPrograms (m m' : Memory) : Prop where
  cells : m.cells = m'.cells
  rtcInputs : m.rtcInputs = m'.rtcInputs
  rtcDraws : m.rtcDraws = m'.rtcDraws

namespace SameMemoryForPrograms

variable {m m' : Memory} (h : SameMemoryForPrograms m m')
include h

theorem read (a : Word) : m.read a = m'.read a := by
  rw [Memory.read, Memory.read, h.cells]

theorem rawStore (a v : Word) : SameMemoryForPrograms (m.rawStore a v) (m'.rawStore a v) where
  cells := by simp only [Memory.rawStore, h.cells]
  rtcInputs := h.rtcInputs
  rtcDraws := h.rtcDraws

theorem storeSnapshot (n : Snapshot) : SameMemoryForPrograms (m.storeSnapshot n) (m'.storeSnapshot n) := by
  unfold Memory.storeSnapshot
  iterate 8 apply SameMemoryForPrograms.rawStore
  exact h

theorem nextSnapshot : m.nextSnapshot = m'.nextSnapshot := by
  simp only [Memory.nextSnapshot, h.rtcInputs, h.rtcDraws]

theorem captureRtc (v : Word) : SameMemoryForPrograms (m.captureRtc v) (m'.captureRtc v) := by
  unfold Memory.captureRtc
  split_ifs
  · exact h
  · have hdraw : SameMemoryForPrograms { m with rtcInputs := m.rtcInputs.tail, rtcDraws := m.rtcDraws + 1 }
        { m' with rtcInputs := m'.rtcInputs.tail, rtcDraws := m'.rtcDraws + 1 } :=
      ⟨h.cells, congrArg List.tail h.rtcInputs, congrArg (· + 1) h.rtcDraws⟩
    rw [h.nextSnapshot]
    exact hdraw.storeSnapshot _

theorem write (a v : Word) : SameMemoryForPrograms (m.write a v) (m'.write a v) := by
  rw [Memory.write_eq, Memory.write_eq]
  split_ifs
  · exact (h.rawStore a v).captureRtc v
  · exact h.rawStore a v

end SameMemoryForPrograms

namespace SameForPrograms

variable {s s' : State} (h : SameForPrograms s s')
include h

theorem memory : SameMemoryForPrograms s.mem s'.mem := ⟨h.cells, h.rtcInputs, h.rtcDraws⟩

/-! What the parts of a step read. -/

theorem breakpointAt (a : Word) : s.breakpointAt a = s'.breakpointAt a := by
  rw [State.breakpointAt, State.breakpointAt, h.breakpoints]

theorem instrAddr : s.instrAddr = s'.instrAddr := by
  rw [State.instrAddr, State.instrAddr, h.pc]

theorem relativeTarget (offset : Int) : s.relativeTarget offset = s'.relativeTarget offset := by
  rw [State.relativeTarget, State.relativeTarget, h.pc]

theorem shiftAmount (rs : RegIdx) : s.shiftAmount rs = s'.shiftAmount rs := by
  rw [State.shiftAmount, State.shiftAmount, h.x]

theorem unspecifiedFlags : s.unspecifiedFlags = s'.unspecifiedFlags := by
  rw [State.unspecifiedFlags, State.unspecifiedFlags, h.draws, h.flags]

theorem tickNow : s.tickNow = s'.tickNow := by
  simp only [State.tickNow, h.tickInputs, h.draws]

theorem fetches {w : Word} (hw : s.Fetches w) : s'.Fetches w := by
  rwa [State.Fetches, ← h.mode, ← h.fault, ← h.code, ← h.pc]

/-! What the parts of a step write. -/

theorem setX (rd : RegIdx) {v v' : Word} (hv : v = v') : SameForPrograms (s.setX rd v) (s'.setX rd v') :=
  { h with x := fun r => by rw [State.x_setX, State.x_setX, h.x, hv] }

theorem setPc {a a' : Word} (ha : a = a') : SameForPrograms { s with pc := a } { s' with pc := a' } :=
  { h with pc := ha }

theorem setMem {m m' : Memory} (hm : SameMemoryForPrograms m m') :
    SameForPrograms { s with mem := m } { s' with mem := m' } :=
  { h with cells := hm.cells, rtcInputs := hm.rtcInputs, rtcDraws := hm.rtcDraws }

theorem emit (d : Diag) : SameForPrograms (s.emit d) (s'.emit d) := { h with }

theorem noteRead (a : Word) : SameForPrograms (s.noteRead a) (s'.noteRead a) := { h with }

theorem raiseFatal (kind : FatalKind) {a a' : Word} (ha : a = a') :
    SameForPrograms (s.raiseFatal kind a) (s'.raiseFatal kind a') :=
  { h with fault := by rw [State.raiseFatal_fault, State.raiseFatal_fault, ha] }

theorem raiseAluFault (kind : FatalKind) : SameForPrograms (s.raiseAluFault kind) (s'.raiseAluFault kind) :=
  { h.raiseFatal kind h.instrAddr with flags := h.unspecifiedFlags }

/-- The end of an ALU function: it reads its two operands through the read contract. -/
theorem finishAlu (f : Word → Word → AluResult) (rd rs1 rs2 : RegIdx) :
    SameForPrograms (s.finishAlu rd (f (s.x rs1) (s.x rs2))) (s'.finishAlu rd (f (s'.x rs1) (s'.x rs2))) := by
  rw [h.x rs1, h.x rs2]
  exact { h.setX rd rfl with flags := rfl }

theorem disableBreakpoint (a : Word) (b : Breakpoint) :
    SameForPrograms (s.disableBreakpoint a b) (s'.disableBreakpoint a b) :=
  { h with
    code := congrArg (List.set · a.toNat b.saved) h.code
    breakpoints := by rw [State.disableBreakpoint_breakpoints, State.disableBreakpoint_breakpoints, h.breakpoints] }

theorem takeBreak (a : Word) : SameForPrograms (s.takeBreak a) (s'.takeBreak a) := by
  unfold State.takeBreak
  rw [h.breakpointAt a]
  cases s'.breakpointAt a with
  | none => exact h.raiseFatal .breakWithoutRecord rfl
  | some b =>
    dsimp only
    split_ifs
    · exact { h.disableBreakpoint a b with atBreakpoint := rfl }
    · exact h.raiseFatal .breakWithoutRecord rfl

theorem beginStep : SameForPrograms s.beginStep s'.beginStep := by
  have hm : SameMemoryForPrograms s.beginStep.mem s'.beginStep.mem := by
    rw [State.beginStep_mem, State.beginStep_mem, h.tickNow]
    split_ifs
    · exact h.memory.write _ _
    · exact h.memory
  exact { h.setMem hm with
    atBreakpoint := rfl
    tickInputs := congrArg List.tail h.tickInputs
    draws := congrArg (· + 1) h.draws }

theorem advance : SameForPrograms s.advance s'.advance := h.setPc (congrArg (· + 1) h.pc)

theorem raiseUndecoded (d : DecodeError) : SameForPrograms (s.raiseUndecoded d) (s'.raiseUndecoded d) := by
  cases d with
  | unknownOpcode op => exact h.raiseFatal _ h.instrAddr
  | unknownAluFunc f => exact h.raiseAluFault _

theorem endStep : SameForPrograms s.endStep s'.endStep :=
  { h with mode := by rw [State.endStep_mode, State.endStep_mode, h.fault, h.pc, h.code, h.mode] }

/-- Every instruction does the same to two states that no program can tell apart. -/
theorem exec_next (i : Instr) : ∃ t t', exec i s = .next t ∧ exec i s' = .next t' ∧ SameForPrograms t t' := by
  cases i with
  | and rd rs1 rs2 => exact ⟨_, _, rfl, rfl, h.finishAlu aluAnd rd rs1 rs2⟩
  | or rd rs1 rs2 => exact ⟨_, _, rfl, rfl, h.finishAlu aluOr rd rs1 rs2⟩
  | nor rd rs1 rs2 => exact ⟨_, _, rfl, rfl, h.finishAlu aluNor rd rs1 rs2⟩
  | xor rd rs1 rs2 => exact ⟨_, _, rfl, rfl, h.finishAlu aluXor rd rs1 rs2⟩
  | add rd rs1 rs2 => exact ⟨_, _, rfl, rfl, h.finishAlu aluAdd rd rs1 rs2⟩
  | sub rd rs1 rs2 => exact ⟨_, _, rfl, rfl, h.finishAlu aluSub rd rs1 rs2⟩
  | mul rd rs1 rs2 => exact ⟨_, _, rfl, rfl, h.finishAlu aluMul rd rs1 rs2⟩
  | div rd rs1 rs2 =>
    refine ⟨_, _, exec_div s rd rs1 rs2, exec_div s' rd rs1 rs2, ?_⟩
    rw [h.x rs2]
    split_ifs
    · exact h.raiseAluFault _
    · exact h.x rs2 ▸ h.finishAlu aluDiv rd rs1 rs2
  | lsl rd rs1 rs2 => exact ⟨_, _, rfl, rfl, h.setX rd (by rw [h.x, h.shiftAmount])⟩
  | asr rd rs1 rs2 => exact ⟨_, _, rfl, rfl, h.setX rd (by rw [h.x, h.shiftAmount])⟩
  | lsr rd rs1 rs2 => exact ⟨_, _, rfl, rfl, h.setX rd (by rw [h.x, h.shiftAmount])⟩
  | load rd rs =>
    refine ⟨_, _, exec_load s rd rs, exec_load s' rd rs, ?_⟩
    rw [h.x rs]
    exact (h.noteRead _).setX rd (h.memory.read _)
  | loadi rd rs imm lhw => exact ⟨_, _, rfl, rfl, h.setX rd (by rw [h.x])⟩
  | store rd rs =>
    refine ⟨_, _, exec_store s rd rs, exec_store s' rd rs, ?_⟩
    rw [h.x rd, h.x rs]
    exact h.setMem (h.memory.write _ _)
  | jmp rs => exact ⟨_, _, rfl, rfl, h.setPc (h.x rs)⟩
  | jmpi offset => exact ⟨_, _, rfl, rfl, h.setPc (h.relativeTarget offset)⟩
  | jmpc rs select => exact ⟨_, _, rfl, rfl, h.setPc (by rw [h.flags, h.x, h.pc])⟩
  | jmpic offset select => exact ⟨_, _, rfl, rfl, h.setPc (by rw [h.flags, h.relativeTarget, h.pc])⟩
  | brk =>
    refine ⟨_, _, exec_brk s, exec_brk s', ?_⟩
    rw [h.instrAddr]
    exact ((h.setPc rfl).emit _).takeBreak _

end SameForPrograms

/-- Settles O54: by the four cases of a step, each built of parts that keep the relation. -/
theorem hiddenStateNeverReachesPrograms : Obligations.HiddenStateNeverReachesPrograms := by
  intro s s' t h hstep
  obtain ⟨hf, ⟨hm, rfl⟩ | ⟨hm, hc, rfl⟩ | ⟨w, d, hw, hd, rfl⟩ | ⟨w, i, u, hw, hd, hx, rfl⟩⟩ := step_cases hstep
  · exact ⟨s', step_halted (h.fault ▸ hf) (h.mode ▸ hm), h⟩
  · rw [h.code, h.pc] at hc
    exact ⟨_, step_outOfBounds (h.fault ▸ hf) (h.mode ▸ hm) hc, h.beginStep.raiseFatal _ h.pc⟩
  · exact ⟨_, step_undecoded (h.fetches hw) hd, h.beginStep.advance.raiseUndecoded d⟩
  · obtain ⟨v, u', hv, hu', hsame⟩ := h.beginStep.advance.exec_next i
    cases hx.symm.trans hv
    exact ⟨_, step_decoded (h.fetches hw) hd hu', hsame.endStep⟩

/-! ### Registers (R22 to R25) -/

/-- Writes to other registers leave what a register reads (R24). -/
theorem State.x_foldl_setX (writes : List (RegIdx × Word)) (s : State) (r : RegIdx) (hne : ∀ p ∈ writes, p.1 ≠ r) :
    (writes.foldl (fun u p => u.setX p.1 p.2) s).x r = s.x r := by
  induction writes generalizing s with
  | nil => rfl
  | cons p rest ih =>
    obtain ⟨hp, hrest⟩ := List.forall_mem_cons.1 hne
    have hkeep : (s.setX p.1 p.2).x r = s.x r := by
      rw [State.x_setX, if_neg hp.symm]
      split_ifs with h0 h1
      · rw [h0]; rfl
      · rw [h1]; rfl
      · rfl
    exact (ih _ hrest).trans hkeep

/-- A register that is not hard-wired reads what was written (R24). -/
theorem State.x_setX_self (s : State) {r : RegIdx} (v : Word) (hr : 2 ≤ r.toNat) : (s.setX r v).x r = v := by
  have h0 : r ≠ 0 := by rintro rfl; exact absurd hr (by decide)
  have h1 : r ≠ 1 := by rintro rfl; exact absurd hr (by decide)
  rw [State.x_setX, if_neg h0, if_neg h1, if_pos rfl]

/-- Settles O1: by induction on the later writes; registers 0 and 1 by the read contract alone. -/
theorem registerKeepsItsValueUntilTheNextWrite : Obligations.RegisterKeepsItsValueUntilTheNextWrite := by
  intro s r v writes
  refine ⟨fun hr hne => ?_, State.x_zero _, State.x_one _⟩
  rw [State.x_foldl_setX writes _ r hne, State.x_setX_self s v hr]

/-- Settles O2: by the effect's shape; DIV by zero by its equation. -/
theorem onlyTheDestinationRegisterChanges : Obligations.OnlyTheDestinationRegisterChanges := by
  intro i s t hx
  refine ⟨(exec_effect hx).getElem_regs, ?_⟩
  rintro rd rs1 rs2 rfl hzero
  rw [exec_div, if_pos hzero] at hx
  cases hx
  rfl

/-! ### Flags (R28, R29) -/

/-- BREAK reads no flag and writes none. -/
theorem State.takeBreak_withFlags (s : State) (f : Flags) (a : Word) :
    { s with flags := f }.takeBreak a = { s.takeBreak a with flags := f } := by
  obtain ⟨saved, hb, h⟩ | ⟨hb, h⟩ := s.takeBreak_cases a <;>
    obtain ⟨saved', hb', h'⟩ | ⟨hb', h'⟩ := { s with flags := f }.takeBreak_cases a
  · cases hb.symm.trans hb'
    rw [h, h']
    rfl
  · exact absurd hb (hb' saved)
  · exact absurd hb' (hb saved')
  · rw [h, h']
    rfl

/-- An ALU instruction that does not fault recomputes the whole flag vector: what it held before has no effect. -/
theorem exec_withFlags_of_alu {i : Instr} (s : State) (f : Flags) (hi : isAlu i = true)
    (hdiv : ∀ rd rs1 rs2, i = .div rd rs1 rs2 → s.x rs2 ≠ 0) : exec i { s with flags := f } = exec i s := by
  cases i with
  | and | or | nor | xor | add | sub | mul => rfl
  | div rd rs1 rs2 =>
    have hne := hdiv rd rs1 rs2 rfl
    rw [exec_div s, if_neg hne]
    exact (exec_div _ rd rs1 rs2).trans (congrArg _ (if_neg hne))
  | lsl | asr | lsr | load | loadi | store | jmp | jmpi | jmpc | jmpic | brk => cases hi

/-- An instruction outside the ALU that is no conditional jump carries the flags along. -/
theorem exec_withFlags_of_not_alu {i : Instr} {s t : State} (f : Flags) (hi : isAlu i = false)
    (hjmpc : ∀ rs select, i ≠ .jmpc rs select) (hjmpic : ∀ offset select, i ≠ .jmpic offset select)
    (hx : exec i s = .next t) : exec i { s with flags := f } = .next { t with flags := f } := by
  cases i with
  | lsl | asr | lsr | load | loadi | store | jmp | jmpi => cases hx; rfl
  | jmpc rs select => exact absurd rfl (hjmpc rs select)
  | jmpic offset select => exact absurd rfl (hjmpic offset select)
  | brk =>
    cases hx
    exact congrArg Host.Outcome.next
      (({ s with pc := s.instrAddr }.emit (.breakpointHit s.instrAddr)).takeBreak_withFlags f s.instrAddr)
  | and | or | nor | xor | add | sub | mul | div => cases hi

/-- DIV by zero answers the same from any flags, but for the flags, which it leaves unspecified (R200). -/
theorem exec_divByZero_withFlags {s t : State} {rd rs1 rs2 : RegIdx} (f : Flags) (hzero : s.x rs2 = 0)
    (hx : exec (.div rd rs1 rs2) s = .next t) :
    ∃ t', exec (.div rd rs1 rs2) { s with flags := f } = .next t' ∧ { t' with flags := t.flags } = t := by
  rw [exec_div, if_pos hzero] at hx
  cases hx
  exact ⟨_, (exec_div _ rd rs1 rs2).trans (congrArg _ (if_pos hzero)), rfl⟩

/-- Settles O8: the ALU recomputes the flags, DIV by zero leaves them unspecified, all else carries them along. -/
theorem flagsAreWrittenByAluAndReadByConditionalJumps :
    Obligations.FlagsAreWrittenByAluAndReadByConditionalJumps := by
  refine ⟨fun i s t f hjmpc hjmpic hx => ?_, fun i s t hi hx => (exec_effect hx).flags_of_not_alu hi⟩
  cases hi : isAlu i with
  | false => exact ⟨_, exec_withFlags_of_not_alu f hi hjmpc hjmpic hx, rfl, fun h => (by cases h), fun _ => rfl⟩
  | true =>
    by_cases hdiv : ∀ rd rs1 rs2, i = .div rd rs1 rs2 → s.x rs2 ≠ 0
    · exact ⟨t, (exec_withFlags_of_alu s f hi hdiv).trans hx, rfl, fun _ _ => rfl, fun h => (by cases h)⟩
    · obtain ⟨rd, rs1, rs2, rfl, hzero⟩ : ∃ rd rs1 rs2, i = .div rd rs1 rs2 ∧ s.x rs2 = 0 := by
        simpa using hdiv
      obtain ⟨t', hx', ht'⟩ := exec_divByZero_withFlags f hzero hx
      exact ⟨t', hx', ht', fun _ hne => absurd hne hdiv, fun h => (by cases h)⟩

/-! ### The step: its instruction, its end, code memory (R32, R34, R41, R44 to R46) -/

/-- Settles O36: each arm is a next state by definition. -/
theorem everyInstructionAnswersANextState : Obligations.EveryInstructionAnswersANextState := exec_eq_next

/-- Settles O35: the decoded instruction answers a next state, which the step ends with the halt test. -/
theorem stepRunsTheDecodedInstruction : Obligations.StepRunsTheDecodedInstruction := by
  intro s w i hw hd
  obtain ⟨t, hx⟩ := exec_eq_next i s.beginStep.advance
  exact ⟨t, hx, step_decoded hw hd hx, rfl, rfl⟩

/-- Settles O37, by induction on the number of steps. -/
theorem haltedStepChangesNothing : Obligations.HaltedStepChangesNothing := by
  intro s hm hf n
  induction n with
  | zero => rfl
  | succ n ih => exact (core_run_next (step_halted hf hm) n).trans ih

/-- Settles O43: a step that faults before its end keeps the mode, and the others end with the halt test. -/
theorem haltsExactlyAtCodeLen : Obligations.HaltsExactlyAtCodeLen := by
  intro s t _ hstep
  obtain ⟨-, ⟨hm, rfl⟩ | ⟨hm, -, rfl⟩ | ⟨w, d, ⟨hm, -, -⟩, -, rfl⟩ | ⟨w, i, u, ⟨hm, -, -⟩, -, hx, rfl⟩⟩ :=
    step_cases hstep
  · simp [hm]
  · simp [hm]
  · simp [hm, State.raiseUndecoded_fault_ne_none]
  · have hu : u.mode = .running := (exec_effect hx).mode_eq.trans hm
    simp [hm, hu]

/-- Settles O44: by the cases of a step, of which only a decoded instruction can write code memory. -/
theorem onlyBreakWritesCodeMemory : Obligations.OnlyBreakWritesCodeMemory := by
  intro s t hstep
  obtain ⟨-, ⟨-, rfl⟩ | ⟨-, -, rfl⟩ | ⟨w, d, -, -, rfl⟩ | ⟨w, i, u, ⟨-, -, hc⟩, hd, hx, rfl⟩⟩ := step_cases hstep
  · simp
  · simp
  · simp
  · have he := exec_effect hx
    refine ⟨?_, fun w' hw' hop => he.code_of_ne_brk ?_, fun k hk => ?_⟩
    · obtain h | ⟨v, h⟩ := he.code_eq_or_set <;> simp [h]
    · rintro rfl
      cases hc.symm.trans hw'
      exact hop (opcodeField_of_decodeWith hd)
    · obtain h | ⟨v, h⟩ := he.code_eq_or_set
      · simp [h]
      · simp [h, List.getElem?_set_ne hk.symm]

/-! ### `JMPI -1` (R49, R181) -/

/-- What `JMPI -1` leaves as it found it. -/
structure SameAtSelfJump (s t : State) : Prop where
  mode : t.mode = s.mode
  fault : t.fault = s.fault
  pc : t.pc = s.pc
  code : t.code = s.code
  regs : t.regs = s.regs
  flags : t.flags = s.flags

theorem SameAtSelfJump.fetches {s t : State} {w : Word} (h : SameAtSelfJump s t) (hw : s.Fetches w) :
    t.Fetches w := by
  rwa [State.Fetches, h.mode, h.fault, h.code, h.pc]

theorem SameAtSelfJump.trans {s t u : State} (h : SameAtSelfJump s t) (h' : SameAtSelfJump t u) :
    SameAtSelfJump s u where
  mode := h'.mode.trans h.mode
  fault := h'.fault.trans h.fault
  pc := h'.pc.trans h.pc
  code := h'.code.trans h.code
  regs := h'.regs.trans h.regs
  flags := h'.flags.trans h.flags

theorem decode_encode_selfJump : decode (encode (.jmpi (-1))) = .ok (.jmpi (-1)) := by decide

/-- The jump's target is its own address. -/
theorem State.relativeTarget_advance_neg_one (s : State) : s.advance.relativeTarget (-1) = s.pc := by
  have hneg : (BitVec.ofInt 32 (-1) : Word) = -1 := by decide
  rw [State.relativeTarget, State.advance_pc, hneg, add_neg_cancel_right]

/-- One step of `JMPI -1`: back to the jump, which is a code address and so no place to halt. -/
theorem step_selfJump {s : State} {w : Word} (h : s.Fetches w) (hd : decode w = .ok (.jmpi (-1))) :
    ∃ t, step s = .next t ∧ SameAtSelfJump s t := by
  have ⟨_, _, hc⟩ := h
  obtain ⟨hlt, -⟩ := List.getElem?_eq_some_iff.1 hc
  have hpc : s.beginStep.advance.relativeTarget (-1) = s.pc := s.beginStep.relativeTarget_advance_neg_one
  refine ⟨_, step_decoded h hd (exec_jmpi _ _), ?_, State.endStep_fault _, hpc, State.endStep_code _,
    State.endStep_regs _, State.endStep_flags _⟩
  simp [hpc, hlt.ne]

/-- However many steps run, the core is at the jump again. -/
theorem run_selfJump {s : State} {w : Word} (h : s.Fetches w) (hd : decode w = .ok (.jmpi (-1))) (n : Nat) :
    ∃ t, Sys2Proof.core.run n s = .next t ∧ SameAtSelfJump s t := by
  induction n generalizing s with
  | zero => exact ⟨s, rfl, rfl, rfl, rfl, rfl, rfl, rfl⟩
  | succ n ih =>
    obtain ⟨t, hstep, hst⟩ := step_selfJump h hd
    obtain ⟨u, hrun, htu⟩ := ih (hst.fetches h)
    exact ⟨u, (core_run_next hstep n).trans hrun, hst.trans htu⟩

/-- Settles O22: every run from the jump is at the jump again, so it stops nowhere and is unique. -/
theorem selfJumpLoopsForever : Obligations.SelfJumpLoopsForever := by
  intro s h
  have ⟨hm, hf, _⟩ := h
  refine ⟨fun n => ?_, fun n t ht => ?_⟩
  · obtain ⟨t, hrun, hst⟩ := run_selfJump h decode_encode_selfJump n
    exact ⟨t, hrun, hst.fault.trans hf⟩
  · obtain ⟨u, hrun, hsu⟩ := run_selfJump h decode_encode_selfJump n
    cases hrun.symm.trans ht
    exact ⟨hsu.mode.trans hm, hsu.pc, hsu.code, hsu.regs, hsu.flags⟩

/-! ### `execute()` (R48) -/

/-- One turn of the loop: a step, then a stop on its state or the rest of the loop from it. -/
theorem executeFor_succ {e : OpcodeMap} {n : Nat} {s t : State} (h : executeFor e (n + 1) s = .next t) :
    ∃ u, stepWith e s = .next u ∧
      ((u.stopsExecute = true ∧ t = u) ∨ (u.stopsExecute = false ∧ executeFor e n u = .next t)) := by
  rw [executeFor] at h
  cases hstep : stepWith e s with
  | next u =>
    rw [hstep] at h
    cases hu : u.stopsExecute with
    | true => exact ⟨u, rfl, .inl ⟨hu, by simpa [hu] using h.symm⟩⟩
    | false => exact ⟨u, rfl, .inr ⟨hu, by simpa [hu] using h⟩⟩
  | fault r => simp [hstep] at h
  | refused r => simp [hstep] at h

/-- Settles O45, by induction on the number of steps `execute()` is given. -/
theorem executeStopsOnlyWhereItShould : Obligations.ExecuteStopsOnlyWhereItShould := by
  intro e n
  induction n with
  | zero => exact fun s t h => ⟨0, le_rfl, h, fun h0 => h0, .inr rfl, fun j u _ hj => absurd hj j.not_lt_zero⟩
  | succ n ih =>
    intro s t h
    obtain ⟨u, hstep, ⟨hstop, rfl⟩ | ⟨hgo, hrest⟩⟩ := executeFor_succ h
    · exact ⟨1, by omega, coreWith_run_next hstep 0, fun _ => one_pos, .inl hstop, fun j v _ _ => by omega⟩
    · obtain ⟨k, hkn, hrun, -, hend, hbefore⟩ := ih u t hrest
      refine ⟨k + 1, by omega, (coreWith_run_next hstep k).trans hrun, fun _ => k.succ_pos,
        hend.imp_right (congrArg (· + 1)), fun j v hj hjk hv => ?_⟩
      obtain ⟨i, rfl⟩ := Nat.exists_eq_succ_of_ne_zero hj.ne'
      rw [coreWith_run_next hstep i] at hv
      cases i with
      | zero => cases hv; exact hgo
      | succ i => exact hbefore (i + 1) v i.succ_pos (Nat.lt_of_succ_lt_succ hjk) hv

end Sys2Proof.Machine

/-! ## RAM, the tick and the clock snapshot (spec/20_memory.md) -/

namespace Sys2Proof

/-! ### The words of LOAD, STORE and JMPI (R104, R118) -/

/-- A field is read back where it was shifted to. -/
theorem extract_shift_same {k n : Nat} (v : BitVec k) (h : n + k ≤ 32) :
    (v.setWidth 32 <<< n).extractLsb' n k = v := by
  apply BitVec.eq_of_getLsbD_eq
  intro j hj
  have : n + j < 32 := by omega
  simp [hj, this]

/-- Below a shifted field there are zeros. -/
theorem extract_shift_below {p k n : Nat} (w : Word) (h : p + k ≤ n) : (w <<< n).extractLsb' p k = 0 := by
  apply BitVec.eq_of_getLsbD_eq
  intro j hj
  have : p + j < n := by omega
  simp [this]

/-- Above a shifted field there are zeros. -/
theorem extract_shift_above {k l n p : Nat} (v : BitVec k) (h : n + k ≤ p) :
    (v.setWidth 32 <<< n).extractLsb' p l = 0 := by
  apply BitVec.eq_of_getLsbD_eq
  intro j hj
  have : k ≤ p + j - n := by omega
  simp [this]

/-- Above the opcode there are zeros. -/
theorem extract_setWidth_above {k l p : Nat} (v : BitVec k) (h : k ≤ p) : (v.setWidth 32).extractLsb' p l = 0 := by
  simpa using extract_shift_above (n := 0) (l := l) v (by omega)

theorem encodeFM_fields (op : BitVec 4) (rd rs : RegIdx) :
    (encodeFM op rd rs).extractLsb' 4 5 = rd ∧ (encodeFM op rd rs).extractLsb' 9 5 = rs := by
  constructor <;>
    simp [encodeFM, BitVec.extractLsb'_or, extract_setWidth_above, extract_shift_same, extract_shift_above,
      extract_shift_below]

theorem encodeFJI_offset (op : BitVec 4) (offset : Int) :
    (encodeFJI op offset).extractLsb' 4 24 = BitVec.ofInt 24 offset := by
  simp [encodeFJI, BitVec.extractLsb'_or, extract_setWidth_above, extract_shift_same]

/-- The offset field holds every offset in its range (R109). -/
theorem toInt_ofInt_of_offsetInRange {offset : Int} (h : offsetInRange offset) :
    (BitVec.ofInt 24 offset).toInt = offset := by
  obtain ⟨hlo, hhi⟩ := h
  exact BitVec.toInt_ofInt_eq_self (by omega) (by omega) (by omega)

/-- Format FM reads back the two registers it was given. -/
theorem decodeMemory_encodeFM (make : RegIdx → RegIdx → Instr) (op : BitVec 4) (rd rs : RegIdx) :
    decodeMemory make (encodeFM op rd rs) = make rd rs := by
  obtain ⟨hrd, hrs⟩ := encodeFM_fields op rd rs
  rw [decodeMemory, drawTwoRegs_eq, hrd, hrs]

theorem decode_encode_load (rd rs : RegIdx) : decode (encode (.load rd rs)) = .ok (.load rd rs) := by
  have hop : (encode (.load rd rs)).extractLsb' 0 4 = 4 := Laws.OpcodeBits.load rd rs .reference
  calc decode (encode (.load rd rs)) = .ok (decodeMemory .load (encodeFM 4 rd rs)) := decode_by_opcode hop
    _ = .ok (.load rd rs) := by rw [decodeMemory_encodeFM]

theorem decode_encode_store (rd rs : RegIdx) : decode (encode (.store rd rs)) = .ok (.store rd rs) := by
  have hop : (encode (.store rd rs)).extractLsb' 0 4 = 6 := Laws.OpcodeBits.store rd rs .reference
  calc decode (encode (.store rd rs)) = .ok (decodeMemory .store (encodeFM 6 rd rs)) := decode_by_opcode hop
    _ = .ok (.store rd rs) := by rw [decodeMemory_encodeFM]

theorem decode_encode_jmpi {offset : Int} (h : offsetInRange offset) :
    decode (encode (.jmpi offset)) = .ok (.jmpi offset) := by
  have hop : (encode (.jmpi offset)).extractLsb' 0 4 = 8 := Laws.OpcodeBits.jmpi offset .reference
  calc decode (encode (.jmpi offset)) = .ok (.jmpi ((encodeFJI 8 offset).extractLsb' 4 24).toInt) :=
        decode_by_opcode hop
    _ = .ok (.jmpi offset) := by rw [encodeFJI_offset, toInt_ofInt_of_offsetInRange h]

end Sys2Proof

namespace Sys2Proof.Machine

/-! ### Every word after `MemWrite` (R60, R62, R64, R77, R78) -/

/-- `MemWrite(a, v)` takes a snapshot, and `b` is one of the words it fills (R77). -/
abbrev FilledBySnapshot (a v b : Word) : Prop :=
  a = Config.rtcTriggerAddr ∧ v ≠ 0 ∧ 1026 ≤ b.toNat ∧ b.toNat ≤ 1033

/-- The trigger is none of the snapshot's words. -/
theorem not_filledBySnapshot_self (a v : Word) : ¬ FilledBySnapshot a v a := by
  rintro ⟨rfl, -, hlo, -⟩
  exact absurd hlo (by decide)

theorem not_filledBySnapshot_of_ne {a : Word} (h : a ≠ Config.rtcTriggerAddr) (v b : Word) :
    ¬ FilledBySnapshot a v b := fun hb => h hb.1

/-- A write is a raw store, or it stores a non-zero value to the trigger (R64, R72, R78). -/
theorem Memory.write_cases (m : Memory) (a v : Word) :
    (¬ (a = Config.rtcTriggerAddr ∧ v ≠ 0) ∧ m.write a v = m.rawStore a v) ∨
      (a = Config.rtcTriggerAddr ∧ v ≠ 0) := by
  by_cases h : a = Config.rtcTriggerAddr ∧ v ≠ 0
  · exact .inr h
  · exact .inl ⟨h, m.write_plain (by tauto)⟩

theorem Memory.read_write_trigger (m : Memory) {v : Word} (hv : v ≠ 0) (b : Word) :
    (m.write Config.rtcTriggerAddr v).read b =
      ((m.rawStore Config.rtcTriggerAddr v).storeSnapshot m.nextSnapshot).read b := by
  rw [Memory.write_trigger m hv, Memory.read_storeSnapshot, Memory.read_storeSnapshot]
  rfl

theorem Memory.isWritten_write_trigger (m : Memory) {v : Word} (hv : v ≠ 0) (b : Word) :
    (m.write Config.rtcTriggerAddr v).isWritten b =
      (decide (1026 ≤ b.toNat ∧ b.toNat ≤ 1033) || (m.rawStore Config.rtcTriggerAddr v).isWritten b) := by
  rw [Memory.write_trigger m hv, Memory.isWritten_storeSnapshot]
  rfl

/-- A word that no snapshot fills sees the raw store alone. -/
theorem Memory.read_write (m : Memory) {a v b : Word} (h : ¬ FilledBySnapshot a v b) :
    (m.write a v).read b = if b = a then v else m.read b := by
  rw [← Memory.read_rawStore]
  obtain ⟨-, hw⟩ | ⟨rfl, hv⟩ := m.write_cases a v
  · rw [hw]
  · rw [Memory.read_write_trigger m hv, Memory.read_storeSnapshot_outside]
    exact fun hb => h ⟨rfl, hv, hb⟩

/-- The marks after a write: the address itself, the words of a snapshot if one is taken, and those marked before. -/
theorem Memory.isWritten_write (m : Memory) (a v b : Word) :
    (m.write a v).isWritten b = true ↔ b = a ∨ FilledBySnapshot a v b ∨ m.isWritten b = true := by
  obtain ⟨hplain, hw⟩ | ⟨rfl, hv⟩ := m.write_cases a v
  · have hfill : ¬ FilledBySnapshot a v b := fun ⟨ha, hv, _⟩ => hplain ⟨ha, hv⟩
    simp [hw, Memory.isWritten_rawStore, hfill]
  · simp only [Memory.isWritten_write_trigger m hv, Memory.isWritten_rawStore, Bool.or_eq_true, decide_eq_true_eq,
      FilledBySnapshot, hv, ne_eq, not_false_eq_true, true_and]
    exact or_left_comm

theorem Memory.read_write_self (m : Memory) (a v : Word) : (m.write a v).read a = v := by
  rw [m.read_write (not_filledBySnapshot_self a v), if_pos rfl]

/-- What a write neither addresses nor fills with a snapshot is as before, the mark too. -/
theorem Memory.write_frame (m : Memory) {a v b : Word} (hne : b ≠ a) (h : ¬ FilledBySnapshot a v b) :
    (m.write a v).read b = m.read b ∧ (m.write a v).isWritten b = m.isWritten b := by
  refine ⟨by rw [m.read_write h, if_neg hne], ?_⟩
  rw [Bool.eq_iff_iff, Memory.isWritten_write]
  tauto

/-- Settles O10: by what a write leaves at its own address and elsewhere; the never-written word by the canonical
form. -/
theorem memWriteThenMemRead : Obligations.MemWriteThenMemRead := by
  intro m a v b
  exact ⟨m.read_write_self a v, (m.isWritten_write a v a).2 (.inl rfl), m.write_frame, fun h => m.read_unwritten h⟩

/-- Settles O17: a write of 0 is a raw store, which touches no clock input. -/
theorem zeroToTheTriggerTakesNoSnapshot : Obligations.ZeroToTheTriggerTakesNoSnapshot := by
  intro m
  have hw : m.write 1025 0 = m.rawStore 1025 0 := m.write_plain (.inr rfl)
  refine ⟨m.read_write_self 1025 0, fun b hlo _ => (m.write_frame ?_ fun hb => hb.2.1 rfl).1, ?_, ?_⟩
  · rintro rfl
    exact absurd hlo (by decide)
  · rw [hw]; rfl
  · rw [hw]; rfl

/-- Settles O15: the STORE is a write to the trigger, whose snapshot's fields are read back where they are stored; the
rest is the write's frame. -/
theorem storeToTheTriggerTakesASnapshot : Obligations.StoreToTheTriggerTakesASnapshot := by
  intro rd rs s v haddr hval hv
  obtain ⟨hsec, hmin, hhour, hmday, hmon, hyear, hwday, hextra⟩ :=
    Memory.read_storeSnapshot_fields (s.mem.rawStore Config.rtcTriggerAddr v) s.mem.nextSnapshot
  simp only [← Memory.read_write_trigger s.mem hv] at hsec hmin hhour hmday hmon hyear hwday hextra
  refine ⟨{ s with mem := s.mem.write Config.rtcTriggerAddr v }, s.mem.nextSnapshot, ?_, rfl, fun n' rest hq => ?_,
    s.mem.read_write_self _ v, hsec, Fin.isLt _, hmin, hhour, hmday, hmon, hyear, hwday, hextra,
    fun b hlo hhi => ?_, fun b hb => ?_⟩
  · rw [exec_store, haddr, hval]
  · refine ⟨Memory.nextSnapshot_of_cons hq, ?_⟩
    rw [Memory.write_trigger s.mem hv, Memory.rtcInputs_storeSnapshot, hq, List.tail_cons]
  · obtain hb | hb : b.toNat = 1025 ∨ 1026 ≤ b.toNat := by omega
    · exact (s.mem.isWritten_write _ v b).2 (.inl (BitVec.eq_of_toNat_eq hb))
    · exact (s.mem.isWritten_write _ v b).2 (.inr (.inl ⟨rfl, hv, hb, hhi⟩))
  · refine s.mem.write_frame ?_ fun ⟨_, _, hlo, hhi⟩ => hb ⟨by omega, hhi⟩
    rintro rfl
    exact hb (by decide)

/-! ### Marks and the host's buffer only grow (R43, R63, R65) -/

/-- `m'` has every mark of `m`, and the host's buffer must reach at least as far. -/
structure Memory.Grows (m m' : Memory) : Prop where
  extent : m.extent ≤ m'.extent
  isWritten : ∀ a : Word, m.isWritten a = true → m'.isWritten a = true

theorem Memory.Grows.refl (m : Memory) : m.Grows m := ⟨le_rfl, fun _ => id⟩

theorem Memory.Grows.trans {m m' m'' : Memory} (h : m.Grows m') (h' : m'.Grows m'') : m.Grows m'' :=
  ⟨h.extent.trans h'.extent, fun a ha => h'.isWritten a (h.isWritten a ha)⟩

theorem Memory.grows_touch (m : Memory) (a : Word) : m.Grows (m.touch a) := ⟨le_max_left _ _, fun _ => id⟩

theorem Memory.extent_le_storeSnapshot (m : Memory) (n : Snapshot) : m.extent ≤ (m.storeSnapshot n).extent := by
  simp only [Memory.storeSnapshot, Memory.rawStore, max_assoc]
  exact le_max_left _ _

/-- A write's own address is reached, and nothing reached before is given up (R65). -/
theorem Memory.extent_write (m : Memory) (a v : Word) :
    m.extent ≤ (m.write a v).extent ∧ a.toNat < (m.write a v).extent := by
  have hraw : m.extent ≤ (m.rawStore a v).extent ∧ a.toNat < (m.rawStore a v).extent :=
    ⟨le_max_left _ _, Nat.lt_of_succ_le (le_max_right _ _)⟩
  obtain ⟨-, hw⟩ | ⟨rfl, hv⟩ := m.write_cases a v
  · rwa [hw]
  · have hsnap : (m.rawStore Config.rtcTriggerAddr v).extent ≤ (m.write Config.rtcTriggerAddr v).extent := by
      rw [Memory.write_trigger m hv]
      exact Memory.extent_le_storeSnapshot (m.rawStore Config.rtcTriggerAddr v) m.nextSnapshot
    exact ⟨hraw.1.trans hsnap, hraw.2.trans_le hsnap⟩

theorem Memory.grows_write (m : Memory) (a v : Word) : m.Grows (m.write a v) :=
  ⟨(m.extent_write a v).1, fun b hb => (m.isWritten_write a v b).2 (.inr (.inr hb))⟩

/-- All that an instruction can do to memory: LOAD's access, STORE's write, or nothing. -/
theorem exec_mem_cases {i : Instr} {s t : State} (h : exec i s = .next t) :
    t.mem = s.mem ∨ (∃ rd rs, i = .load rd rs ∧ t.mem = s.mem.touch (s.x rs)) ∨
      (∃ rd rs, i = .store rd rs ∧ t.mem = s.mem.write (s.x rd) (s.x rs)) := by
  cases exec_effect h with
  | load rd rs => exact .inr (.inl ⟨rd, rs, rfl, rfl⟩)
  | store rd rs m => exact .inr (.inr ⟨rd, rs, rfl, (congrArg State.mem (Host.Outcome.next.inj h)).symm⟩)
  | alu | divByZero | register | jump | breakTaken | breakUnrecorded => exact .inl rfl

theorem exec_mem_grows {i : Instr} {s t : State} (h : exec i s = .next t) : s.mem.Grows t.mem := by
  obtain hm | ⟨rd, rs, -, hm⟩ | ⟨rd, rs, -, hm⟩ := exec_mem_cases h <;> rw [hm]
  · exact .refl _
  · exact s.mem.grows_touch _
  · exact s.mem.grows_write _ _

theorem State.beginStep_mem_grows (s : State) : s.mem.Grows s.beginStep.mem := by
  rw [State.beginStep_mem]
  split_ifs
  · exact s.mem.grows_write _ _
  · exact .refl _

@[simp] theorem State.raiseUndecoded_mem (s : State) (d : DecodeError) : (s.raiseUndecoded d).mem = s.mem := by
  cases d <;> rfl

theorem step_mem_grows {s t : State} (h : step s = .next t) : s.mem.Grows t.mem := by
  obtain ⟨-, ⟨-, rfl⟩ | ⟨-, -, rfl⟩ | ⟨w, d, -, -, rfl⟩ | ⟨w, i, u, -, -, hx, rfl⟩⟩ := step_cases h
  · exact .refl _
  · exact s.beginStep_mem_grows
  · rw [State.raiseUndecoded_mem]
    exact s.beginStep_mem_grows
  · have hexec : s.beginStep.advance.mem.Grows u.mem := exec_mem_grows hx
    exact s.beginStep_mem_grows.trans hexec

/-- Settles O18: marks grow with memory. -/
theorem writtenAddressesStayWritten : Obligations.WrittenAddressesStayWritten :=
  fun _ _ a h => (step_mem_grows h).isWritten a

/-- A run of `n + 1` steps is a step and a run of `n`. -/
theorem core_run_succ {n : Nat} {s t : State} (h : Sys2Proof.core.run (n + 1) s = .next t) :
    ∃ u, step s = .next u ∧ Sys2Proof.core.run n u = .next t := by
  have hrun := Host.Core.run.eq_2 Sys2Proof.core s n
  rw [h] at hrun
  split at hrun
  · next u hstep => exact ⟨u, hstep, hrun.symm⟩
  · cases hrun
  · cases hrun

theorem core_run_mem_grows {n : Nat} {s t : State} (h : Sys2Proof.core.run n s = .next t) : s.mem.Grows t.mem := by
  induction n generalizing s with
  | zero => cases h; exact .refl _
  | succ n ih =>
    obtain ⟨u, hstep, hrun⟩ := core_run_succ h
    exact (step_mem_grows hstep).trans (ih hrun)

/-! ### The host's RAM buffer (R65, R230; log entry 13) -/

/-- Canonical RAM has a buffer to give: its words up to the extent. -/
theorem State.exists_isRamBuffer {s : State} (h : s.mem.wf) : ∃ l, s.IsRamBuffer l := by
  obtain ⟨-, -, -, -, hext⟩ := h
  refine ⟨(List.range s.mem.extent).map fun k => s.mem.read (BitVec.ofNat 32 k), ?_, ?_, ?_⟩
  · simp
  · simpa using hext
  · simp

/-- What the buffer reaches, it holds as RAM reads it. -/
theorem State.IsRamBuffer.getElem?_eq {s : State} {l : List Word} (h : s.IsRamBuffer l) {a : Word}
    (ha : a.toNat < s.mem.extent) : a.toNat + 1 ≤ l.length ∧ l[a.toNat]? = some (s.mem.read a) := by
  obtain ⟨hext, -, hread⟩ := h
  have hlt : a.toNat < l.length := ha.trans_le hext
  refine ⟨hlt, ?_⟩
  rw [List.getElem?_eq_getElem hlt, hread a.toNat hlt, BitVec.ofNat_toNat, BitVec.setWidth_eq]

/-- In canonical RAM every marked address lies below the extent. -/
theorem Memory.lt_extent_of_isWritten {m : Memory} (h : m.wf) {a : Word} (ha : m.isWritten a = true) :
    a.toNat < m.extent := by
  obtain ⟨-, -, -, hlt, -⟩ := h
  exact hlt _ (List.contains_iff_mem.1 ha)

/-- Settles O19: the extent grows along runs, covers each marked address and each access, and canonical RAM stays
canonical. -/
theorem ramBufferReachesEveryAccessedAddress : Obligations.RamBufferReachesEveryAccessedAddress := by
  refine ⟨fun s t n l hrun hbuf => (core_run_mem_grows hrun).extent.trans hbuf.1, fun s t rd rs a hwf =>
    ⟨fun l b hbuf hb => (hbuf.getElem?_eq (s.mem.lt_extent_of_isWritten hwf hb)).1, fun haccess => ?_⟩⟩
  have hreach : t.mem.wf ∧ a.toNat < t.mem.extent := by
    obtain ⟨hx, rfl⟩ | ⟨hx, rfl⟩ := haccess <;> cases hx
    · exact ⟨s.mem.wf_touch hwf _, Nat.lt_of_succ_le (le_max_right _ _)⟩
    · exact ⟨s.mem.wf_write hwf _ _, (s.mem.extent_write _ _).2⟩
  exact ⟨State.exists_isRamBuffer hreach.1, fun l hbuf => hbuf.getElem?_eq hreach.2⟩

/-! ### The tick (R74, R75, R82) -/

/-- The word at 1024 once the step has begun (R75). -/
theorem State.read_beginStep_tick (s : State) :
    s.beginStep.mem.read 1024 = if s.tickNow then 1 else s.mem.read 1024 := by
  rw [State.beginStep_mem]
  split_ifs
  · exact s.mem.read_write_self Config.tickAddr 1
  · rfl

/-- The tick is written at 1024 alone (R75). -/
theorem State.read_beginStep_of_ne (s : State) {b : Word} (hb : b ≠ 1024) :
    s.beginStep.mem.read b = s.mem.read b := by
  rw [State.beginStep_mem]
  split_ifs
  · exact (s.mem.write_frame hb (not_filledBySnapshot_of_ne (by decide) 1 b)).1
  · rfl

/-- Settles O42: the step begins with the tick's write, and the instruction runs on the memory that leaves. -/
theorem tickIsWrittenBeforeTheInstruction : Obligations.TickIsWrittenBeforeTheInstruction := by
  intro s rd rs
  refine ⟨s.read_beginStep_tick, fun b => s.read_beginStep_of_ne, fun hw haddr htick hrd => ?_, fun hw haddr => ?_,
    fun offset hoff hw => ?_⟩
  · have htickWord : s.beginStep.mem.read 1024 = 1 := by rw [s.read_beginStep_tick, if_pos htick]
    refine ⟨_, step_decoded hw (decode_encode_load rd rs) (exec_load _ rd rs), ?_, ?_⟩
    · rw [State.endStep_x, State.x_setX_self _ _ hrd]
      simp only [State.advance_x, State.advance_mem, State.beginStep_x, haddr]
      exact htickWord
    · exact htickWord
  · refine ⟨_, step_decoded hw (decode_encode_store rd rs) (exec_store _ rd rs), ?_⟩
    simp only [State.endStep_mem, State.advance_x, State.advance_mem, State.beginStep_x, haddr]
    exact Memory.read_write_self _ 1024 _
  · exact ⟨_, step_decoded hw (decode_encode_jmpi hoff) (exec_jmpi _ offset), rfl⟩

end Sys2Proof.Machine

/-! ## Decoding and encoding (spec/30_encoding.md) -/

namespace Sys2Proof

/-! ### The decoder by opcode and by function, under any assignment (R110, R113, R114) -/

/-- What `Decode` does with a word once its opcode is known (R110). -/
def decodeFormat (e : OpcodeMap) (w : Word) : Opcode → Except DecodeError Instr
  | .alu => decodeAlu e w
  | .lsl => .ok (decodeShift .lsl w)
  | .asr => .ok (decodeShift .asr w)
  | .lsr => .ok (decodeShift .lsr w)
  | .load => .ok (decodeMemory .load w)
  | .loadi => .ok (decodeLoadi w)
  | .store => .ok (decodeMemory .store w)
  | .jmp => .ok (.jmp (w.extractLsb' 4 5))
  | .jmpi => .ok (.jmpi (w.extractLsb' 4 24).toInt)
  | .jmpc => .ok (decodeJmpc w)
  | .jmpic => .ok (decodeJmpic w)
  | .brk => .ok .brk

/-- The instruction of an ALU function (R112). -/
def aluInstr : AluFunc → RegIdx → RegIdx → RegIdx → Instr
  | .and => .and
  | .or => .or
  | .nor => .nor
  | .xor => .xor
  | .add => .add
  | .sub => .sub
  | .mul => .mul
  | .div => .div

theorem encodeWith_aluInstr (e : OpcodeMap) (f : AluFunc) (rd rs1 rs2 : RegIdx) :
    encodeWith e (aluInstr f rd rs1 rs2) = encodeFA (e.opc .alu) rd rs1 rs2 (e.aluf f) := by
  cases f <;> rfl

theorem wellFormed_aluInstr (f : AluFunc) (rd rs1 rs2 : RegIdx) : (aluInstr f rd rs1 rs2).WellFormed := by
  cases f <;> exact trivial

section AnyAssignment

variable {e : OpcodeMap} {w : Word}

theorem OpcodeMap.WellFormed.opc_eq_iff (he : e.WellFormed) (a b : Opcode) : e.opc a = e.opc b ↔ a = b :=
  ⟨he.opc a b, congrArg e.opc⟩

theorem OpcodeMap.WellFormed.aluf_eq_iff (he : e.WellFormed) (a b : AluFunc) : e.aluf a = e.aluf b ↔ a = b :=
  ⟨he.aluf a b, congrArg e.aluf⟩

/-- An assigned opcode selects its own format. -/
theorem decodeWith_of_opcode (he : e.WellFormed) {o : Opcode} (h : opcodeField w = e.opc o) :
    decodeWith e w = decodeFormat e w o := by
  simp only [decodeWith, h, he.opc_eq_iff]
  cases o <;> rfl

/-- A word of no assigned opcode is refused (R113). -/
theorem decodeWith_of_no_opcode (h : ∀ o, opcodeField w ≠ e.opc o) :
    decodeWith e w = .error (.unknownOpcode (opcodeField w)) := by
  simp only [decodeWith, h, if_false]

/-- An assigned function selects its own instruction. -/
theorem decodeAlu_of_function (he : e.WellFormed) {f : AluFunc} (h : w.extractLsb' 19 5 = e.aluf f) :
    decodeAlu e w = .ok (aluInstr f (w.extractLsb' 4 5) (w.extractLsb' 9 5) (w.extractLsb' 14 5)) := by
  simp only [decodeAlu, drawThreeRegs_eq, drawBits, h, he.aluf_eq_iff]
  cases f <;> rfl

/-- A word of no assigned function is refused (R114). -/
theorem decodeAlu_of_no_function (h : ∀ f, w.extractLsb' 19 5 ≠ e.aluf f) :
    decodeAlu e w = .error (.unknownAluFunc (w.extractLsb' 19 5)) := by
  simp only [decodeAlu, drawThreeRegs_eq, drawBits, h, if_false]

/-- Only opcode ALU can be refused once the opcode is known (R114). -/
theorem decodeFormat_ok_of_ne_alu (e : OpcodeMap) (w : Word) {o : Opcode} (h : o ≠ .alu) :
    ∃ i, decodeFormat e w o = .ok i := by
  cases o with
  | alu => exact absurd rfl h
  | lsl | asr | lsr | load | loadi | store | jmp | jmpi | jmpc | jmpic | brk => exact ⟨_, rfl⟩

/-- Everything the ALU's decoder can answer. -/
theorem decodeAlu_cases (he : e.WellFormed) (w : Word) :
    (∃ f, w.extractLsb' 19 5 = e.aluf f ∧
      decodeAlu e w = .ok (aluInstr f (w.extractLsb' 4 5) (w.extractLsb' 9 5) (w.extractLsb' 14 5))) ∨
    ((∀ f, w.extractLsb' 19 5 ≠ e.aluf f) ∧
      decodeAlu e w = .error (.unknownAluFunc (w.extractLsb' 19 5))) := by
  by_cases h : ∃ f, w.extractLsb' 19 5 = e.aluf f
  · obtain ⟨f, hf⟩ := h
    exact .inl ⟨f, hf, decodeAlu_of_function he hf⟩
  · have hno := not_exists.1 h
    exact .inr ⟨hno, decodeAlu_of_no_function hno⟩

/-- Everything the decoder can answer. -/
theorem decodeWith_cases (he : e.WellFormed) (w : Word) :
    (∃ o, opcodeField w = e.opc o ∧ decodeWith e w = decodeFormat e w o) ∨
    ((∀ o, opcodeField w ≠ e.opc o) ∧ decodeWith e w = .error (.unknownOpcode (opcodeField w))) := by
  by_cases h : ∃ o, opcodeField w = e.opc o
  · obtain ⟨o, ho⟩ := h
    exact .inl ⟨o, ho, decodeWith_of_opcode he ho⟩
  · have hno := not_exists.1 h
    exact .inr ⟨hno, decodeWith_of_no_opcode hno⟩

/-! ### Which words are refused (R113, R114) -/

theorem decodeFormat_ne_unknownOpcode (he : e.WellFormed) (w : Word) (o : Opcode) (op : BitVec 4) :
    decodeFormat e w o ≠ .error (.unknownOpcode op) := by
  intro h
  by_cases ho : o = .alu
  · subst ho
    obtain ⟨f, -, hok⟩ | ⟨-, herr⟩ := decodeAlu_cases he w
    · cases hok.symm.trans h
    · cases herr.symm.trans h
  · obtain ⟨i, hok⟩ := decodeFormat_ok_of_ne_alu e w ho
    cases hok.symm.trans h

theorem decodeWith_eq_unknownOpcode_iff (he : e.WellFormed) (w : Word) (op : BitVec 4) :
    decodeWith e w = .error (.unknownOpcode op) ↔ op = opcodeField w ∧ ∀ o, op ≠ e.opc o := by
  constructor
  · intro h
    obtain ⟨o, -, hd⟩ | ⟨hno, hd⟩ := decodeWith_cases he w
    · exact absurd (hd.symm.trans h) (decodeFormat_ne_unknownOpcode he w o op)
    · cases hd.symm.trans h
      exact ⟨rfl, hno⟩
  · rintro ⟨rfl, hno⟩
    exact decodeWith_of_no_opcode hno

theorem decodeWith_eq_unknownAluFunc_iff (he : e.WellFormed) (w : Word) (f : BitVec 5) :
    decodeWith e w = .error (.unknownAluFunc f) ↔
      opcodeField w = e.opc .alu ∧ f = w.extractLsb' 19 5 ∧ ∀ g, f ≠ e.aluf g := by
  constructor
  · intro h
    obtain ⟨o, ho, hd⟩ | ⟨-, hd⟩ := decodeWith_cases he w
    · have hfmt := hd.symm.trans h
      have halu : o = .alu := by
        by_contra hne
        obtain ⟨i, hok⟩ := decodeFormat_ok_of_ne_alu e w hne
        cases hok.symm.trans hfmt
      subst halu
      obtain ⟨g, -, hok⟩ | ⟨hno, herr⟩ := decodeAlu_cases he w
      · cases hok.symm.trans hfmt
      · cases herr.symm.trans hfmt
        exact ⟨ho, rfl, hno⟩
    · cases hd.symm.trans h
  · rintro ⟨ho, rfl, hno⟩
    exact (decodeWith_of_opcode he ho).trans (decodeAlu_of_no_function hno)

end AnyAssignment

/-- The reference tables give different opcodes, and different functions, different values (R111, R112). -/
theorem wellFormed_reference : OpcodeMap.reference.WellFormed where
  opc a b := by cases a <;> cases b <;> decide
  aluf a b := by cases a <;> cases b <;> decide

/-- The reference assignment leaves the opcode values from 12 up unassigned (R111). -/
theorem reference_opc_unassigned_iff (op : BitVec 4) :
    (∀ o, op ≠ OpcodeMap.reference.opc o) ↔ 12 ≤ op.toNat := by
  constructor
  · intro h
    obtain h' | h' | h' | h' | h' | h' | h' | h' | h' | h' | h' | h' | h' := opcode_values op
    exacts [absurd h' (h .alu), absurd h' (h .lsl), absurd h' (h .asr), absurd h' (h .lsr), absurd h' (h .load),
      absurd h' (h .loadi), absurd h' (h .store), absurd h' (h .jmp), absurd h' (h .jmpi), absurd h' (h .jmpc),
      absurd h' (h .jmpic), absurd h' (h .brk), h']
  · rintro h o rfl
    cases o <;> exact absurd h (by decide)

/-- The reference assignment leaves the function values from 8 up unassigned (R112). -/
theorem reference_aluf_unassigned_iff (f : BitVec 5) :
    (∀ g, f ≠ OpcodeMap.reference.aluf g) ↔ 8 ≤ f.toNat := by
  constructor
  · intro h
    obtain h' | h' | h' | h' | h' | h' | h' | h' | h' := function_values f
    exacts [absurd h' (h .and), absurd h' (h .or), absurd h' (h .nor), absurd h' (h .xor), absurd h' (h .add),
      absurd h' (h .sub), absurd h' (h .mul), absurd h' (h .div), h']
  · rintro h g rfl
    cases g <;> exact absurd h (by decide)

/-- Settles O33: the two refusals of any assignment, at the reference assignment's unassigned values. -/
theorem decodeRefusesExactlyTheUnassigned : Obligations.DecodeRefusesExactlyTheUnassigned := by
  intro w
  constructor
  · intro op
    rw [← reference_opc_unassigned_iff]
    exact decodeWith_eq_unknownOpcode_iff wellFormed_reference w op
  · intro f
    rw [← reference_aluf_unassigned_iff]
    exact decodeWith_eq_unknownAluFunc_iff wellFormed_reference w f

/-! ### The fields of an encoding (R104, R118) -/

/-- A field below a shifted one is read as if that were not there. -/
theorem extract_or_shift_above {p l k n : Nat} (w : Word) (v : BitVec k) (h : p + l ≤ n) :
    (w ||| v.setWidth 32 <<< n).extractLsb' p l = w.extractLsb' p l := by
  rw [BitVec.extractLsb'_or, extract_shift_below _ h]
  exact BitVec.or_zero

theorem encodeFS_fields (op : BitVec 4) (rd rs1 rs2 : RegIdx) :
    (encodeFS op rd rs1 rs2).extractLsb' 4 5 = rd ∧ (encodeFS op rd rs1 rs2).extractLsb' 9 5 = rs1 ∧
      (encodeFS op rd rs1 rs2).extractLsb' 14 5 = rs2 := by
  obtain ⟨hrd, hrs1⟩ := encodeFM_fields op rd rs1
  refine ⟨(extract_or_shift_above _ _ (by omega)).trans hrd, (extract_or_shift_above _ _ (by omega)).trans hrs1, ?_⟩
  simp [encodeFS, BitVec.extractLsb'_or, extract_setWidth_above, extract_shift_same, extract_shift_above]

theorem encodeFA_fields (op : BitVec 4) (rd rs1 rs2 : RegIdx) (f : BitVec 5) :
    (encodeFA op rd rs1 rs2 f).extractLsb' 4 5 = rd ∧ (encodeFA op rd rs1 rs2 f).extractLsb' 9 5 = rs1 ∧
      (encodeFA op rd rs1 rs2 f).extractLsb' 14 5 = rs2 ∧ (encodeFA op rd rs1 rs2 f).extractLsb' 19 5 = f := by
  obtain ⟨hrd, hrs1, hrs2⟩ := encodeFS_fields op rd rs1 rs2
  refine ⟨(extract_or_shift_above _ _ (by omega)).trans hrd, (extract_or_shift_above _ _ (by omega)).trans hrs1,
    (extract_or_shift_above _ _ (by omega)).trans hrs2, ?_⟩
  simp [encodeFA, encodeFS, BitVec.extractLsb'_or, extract_setWidth_above, extract_shift_same, extract_shift_above]

theorem encodeFL_fields (op : BitVec 4) (rd rs : RegIdx) (imm : BitVec 16) (lhw : Bool) :
    (encodeFL op rd rs imm lhw).extractLsb' 4 5 = rd ∧ (encodeFL op rd rs imm lhw).extractLsb' 9 5 = rs ∧
      (encodeFL op rd rs imm lhw).extractLsb' 14 16 = imm ∧
      (encodeFL op rd rs imm lhw).extractLsb' 30 1 = BitVec.ofBool lhw := by
  obtain ⟨hrd, hrs⟩ := encodeFM_fields op rd rs
  rw [← hrd, ← hrs]
  simp [encodeFL, encodeFM, BitVec.extractLsb'_or, extract_setWidth_above, extract_shift_same, extract_shift_above,
    extract_shift_below]

theorem encodeFJ_field (op : BitVec 4) (rs : RegIdx) : (encodeFJ op rs).extractLsb' 4 5 = rs := by
  simp [encodeFJ, BitVec.extractLsb'_or, extract_setWidth_above, extract_shift_same]

theorem encodeFJC_fields (op : BitVec 4) (rs : RegIdx) (select : BitVec 4) :
    (encodeFJC op rs select).extractLsb' 4 5 = rs ∧ (encodeFJC op rs select).extractLsb' 9 4 = select := by
  refine ⟨(extract_or_shift_above _ _ (by omega)).trans (encodeFJ_field op rs), ?_⟩
  simp [encodeFJC, encodeFJ, BitVec.extractLsb'_or, extract_setWidth_above, extract_shift_same, extract_shift_above]

theorem encodeFJIC_fields (op : BitVec 4) (offset : Int) (select : BitVec 4) :
    (encodeFJIC op offset select).extractLsb' 4 24 = BitVec.ofInt 24 offset ∧
      (encodeFJIC op offset select).extractLsb' 28 4 = select := by
  refine ⟨(extract_or_shift_above _ _ (by omega)).trans (encodeFJI_offset op offset), ?_⟩
  simp [encodeFJIC, encodeFJI, BitVec.extractLsb'_or, extract_setWidth_above, extract_shift_same, extract_shift_above]

/-! ### Decoding inverts encoding (R118) -/

theorem opcodeField_encodeWith (e : OpcodeMap) (i : Instr) : opcodeField (encodeWith e i) = e.opc (opcodeOf i) := by
  cases i with
  | and | or | nor | xor | add | sub | mul | div => exact opcode_FA _ _ _ _ _
  | lsl | asr | lsr => exact opcode_FS _ _ _ _
  | load | store => exact opcode_FM _ _ _
  | loadi => exact opcode_FL _ _ _ _ _
  | jmp => exact opcode_FJ _ _
  | jmpi => exact opcode_FJI _ _
  | jmpc => exact opcode_FJC _ _ _
  | jmpic => exact opcode_FJIC _ _ _
  | brk => exact opcode_alone _

theorem decodeAlu_encodeFA {e : OpcodeMap} (he : e.WellFormed) (op : BitVec 4) (rd rs1 rs2 : RegIdx) (f : AluFunc) :
    decodeAlu e (encodeFA op rd rs1 rs2 (e.aluf f)) = .ok (aluInstr f rd rs1 rs2) := by
  obtain ⟨hrd, hrs1, hrs2, hf⟩ := encodeFA_fields op rd rs1 rs2 (e.aluf f)
  rw [decodeAlu_of_function he hf, hrd, hrs1, hrs2]

theorem decodeShift_encodeFS (make : RegIdx → RegIdx → RegIdx → Instr) (op : BitVec 4) (rd rs1 rs2 : RegIdx) :
    decodeShift make (encodeFS op rd rs1 rs2) = make rd rs1 rs2 := by
  obtain ⟨hrd, hrs1, hrs2⟩ := encodeFS_fields op rd rs1 rs2
  rw [decodeShift, drawThreeRegs_eq, hrd, hrs1, hrs2]

theorem decodeLoadi_encodeFL (op : BitVec 4) (rd rs : RegIdx) (imm : BitVec 16) (lhw : Bool) :
    decodeLoadi (encodeFL op rd rs imm lhw) = .loadi rd rs imm lhw := by
  obtain ⟨hrd, hrs, himm, hlhw⟩ := encodeFL_fields op rd rs imm lhw
  have hbool : (BitVec.ofBool lhw == 1) = lhw := by cases lhw <;> rfl
  rw [decodeLoadi_eq, hrd, hrs, himm, hlhw, hbool]

theorem decodeJmpc_encodeFJC (op : BitVec 4) (rs : RegIdx) (select : BitVec 4) :
    decodeJmpc (encodeFJC op rs select) = .jmpc rs select := by
  obtain ⟨hrs, hselect⟩ := encodeFJC_fields op rs select
  rw [decodeJmpc_eq, hrs, hselect]

theorem decodeJmpic_encodeFJIC (op : BitVec 4) {offset : Int} (h : offsetInRange offset) (select : BitVec 4) :
    decodeJmpic (encodeFJIC op offset select) = .jmpic offset select := by
  obtain ⟨hoffset, hselect⟩ := encodeFJIC_fields op offset select
  rw [decodeJmpic_eq, hoffset, hselect, toInt_ofInt_of_offsetInRange h]

/-- Settles O30: the opcode selects the instruction's own format, and each format reads back its fields. -/
theorem decodeInvertsEncode : Obligations.DecodeInvertsEncode := by
  intro e i he hi
  rw [decodeWith_of_opcode he (opcodeField_encodeWith e i)]
  cases i with
  | and rd rs1 rs2 => exact decodeAlu_encodeFA he _ rd rs1 rs2 .and
  | or rd rs1 rs2 => exact decodeAlu_encodeFA he _ rd rs1 rs2 .or
  | nor rd rs1 rs2 => exact decodeAlu_encodeFA he _ rd rs1 rs2 .nor
  | xor rd rs1 rs2 => exact decodeAlu_encodeFA he _ rd rs1 rs2 .xor
  | add rd rs1 rs2 => exact decodeAlu_encodeFA he _ rd rs1 rs2 .add
  | sub rd rs1 rs2 => exact decodeAlu_encodeFA he _ rd rs1 rs2 .sub
  | mul rd rs1 rs2 => exact decodeAlu_encodeFA he _ rd rs1 rs2 .mul
  | div rd rs1 rs2 => exact decodeAlu_encodeFA he _ rd rs1 rs2 .div
  | lsl | asr | lsr => exact congrArg Except.ok (decodeShift_encodeFS _ _ _ _ _)
  | load | store => exact congrArg Except.ok (decodeMemory_encodeFM _ _ _ _)
  | loadi => exact congrArg Except.ok (decodeLoadi_encodeFL _ _ _ _ _)
  | jmp rs => exact congrArg (Except.ok ∘ Instr.jmp) (encodeFJ_field _ rs)
  | jmpi offset =>
    have hoffset : ((encodeFJI (e.opc .jmpi) offset).extractLsb' 4 24).toInt = offset := by
      rw [encodeFJI_offset, toInt_ofInt_of_offsetInRange hi]
    exact congrArg (Except.ok ∘ Instr.jmpi) hoffset
  | jmpc => exact congrArg Except.ok (decodeJmpc_encodeFJC _ _ _)
  | jmpic => exact congrArg Except.ok (decodeJmpic_encodeFJIC _ hi _)
  | brk => rfl

/-! ### The sentinel (R116) -/

/-- Settles O24: the sentinel is the opcode alone, widened with zeros; `add` in its case of no record. -/
theorem sentinelIsTheBreakOpcode : Obligations.SentinelIsTheBreakOpcode := by
  refine ⟨rfl, fun e he => ⟨opcode_alone _, extract_setWidth_above _ le_rfl, fun s a ha hnone => ?_,
    fun w hw => decodeWith_of_opcode he hw⟩⟩
  obtain ⟨hc, -⟩ | ⟨w, -, ⟨-, hadd⟩ | ⟨saved, hb, -⟩ | ⟨saved, hb, -⟩⟩ := s.addBreakpoint_cases e a
  · rw [List.getElem?_eq_getElem ha] at hc
    cases hc
  · rw [hadd]
    exact List.getElem?_set_self ha
  · cases hnone.symm.trans hb
  · cases hnone.symm.trans hb

end Sys2Proof

namespace Sys2Proof.Machine

/-! ### The bits a format draws (R104, R115) -/

/-- The low `n` bits of a word, with zeros above. -/
def lowBits (w : Word) (n : Nat) : Word := (w.extractLsb' 0 n).setWidth 32

theorem lowBits_eq_and (w : Word) (n : Nat) : lowBits w n = w &&& BitVec.ofNat 32 (2 ^ n - 1) := by
  apply BitVec.eq_of_getLsbD_eq
  intro j hj
  simp only [lowBits, BitVec.getLsbD_setWidth, BitVec.getLsbD_extractLsb', BitVec.getLsbD_and, BitVec.getLsbD_ofNat,
    Nat.testBit_two_pow_sub_one]
  simp [hj, Bool.and_comm]

/-- Putting the field at `n` back above the low `n` bits. -/
theorem lowBits_or_field (w : Word) (n k : Nat) :
    lowBits w n ||| (w.extractLsb' n k).setWidth 32 <<< n = lowBits w (n + k) := by
  apply BitVec.eq_of_getLsbD_eq
  intro j hj
  rcases lt_or_ge j n with hn | hn
  · simp [lowBits, hj, hn, Nat.lt_add_right k hn]
  · have hfield : j - n < k ↔ j < n + k := by omega
    simp [lowBits, hj, hn.not_gt, Nat.add_sub_cancel' hn, hfield]

/-- A field below `n` depends on the low `n` bits alone. -/
theorem extract_eq_of_lowBits_eq {w w' : Word} {n : Nat} (h : lowBits w n = lowBits w' n) {p k : Nat}
    (hp : p + k ≤ n) : w.extractLsb' p k = w'.extractLsb' p k := by
  apply BitVec.eq_of_getLsbD_eq
  intro j hj
  have hbit := congrArg (fun v => v.getLsbD (p + j)) h
  rcases lt_or_ge (p + j) 32 with h32 | h32
  · simpa [lowBits, hj, h32, (by omega : p + j < n)] using hbit
  · simp [hj, h32]

/-- Every format draws its fields one after another from bit 0, so that what it draws is the word's low bits: as many
as this (R104). -/
def drawnWidth : Opcode → Nat
  | .alu => 24
  | .lsl | .asr | .lsr => 19
  | .load | .store => 14
  | .loadi => 31
  | .jmp => 9
  | .jmpi => 28
  | .jmpc => 13
  | .jmpic => 32
  | .brk => 4

theorem and_usedBits (w : Word) (o : Opcode) :
    w &&& usedBits (OpcodeMap.reference.opc o) = lowBits w (drawnWidth o) := by
  rw [lowBits_eq_and]
  cases o <;> rfl

theorem and_usedBits_of_unassigned (w : Word) {op : BitVec 4} (h : 12 ≤ op.toNat) :
    w &&& usedBits op = lowBits w 4 := by
  have hused : usedBits op = 0x0000000F := by revert op; decide
  rw [hused, lowBits_eq_and]
  rfl

/-! ### Encoding inverts decoding on the bits drawn (R110, R115, R118) -/

section Fields

variable {w : Word} {op : BitVec 4}

theorem encodeFB_of_fields (hop : opcodeField w = op) : encodeFB op = lowBits w 4 := by
  rw [← hop]
  rfl

theorem encodeFJ_of_fields (hop : opcodeField w = op) : encodeFJ op (w.extractLsb' 4 5) = lowBits w 9 := by
  rw [← hop]
  exact lowBits_or_field w 4 5

theorem encodeFJC_of_fields (hop : opcodeField w = op) :
    encodeFJC op (w.extractLsb' 4 5) (w.extractLsb' 9 4) = lowBits w 13 := by
  rw [encodeFJC, encodeFJ_of_fields hop, lowBits_or_field]

theorem encodeFM_of_fields (hop : opcodeField w = op) :
    encodeFM op (w.extractLsb' 4 5) (w.extractLsb' 9 5) = lowBits w 14 := by
  rw [← lowBits_or_field w 9 5, ← encodeFJ_of_fields hop]
  rfl

theorem encodeFL_of_fields (hop : opcodeField w = op) :
    encodeFL op (w.extractLsb' 4 5) (w.extractLsb' 9 5) (w.extractLsb' 14 16) (w.extractLsb' 30 1 == 1) =
      lowBits w 31 := by
  have hbit (b : BitVec 1) : BitVec.ofBool (b == 1) = b := by revert b; decide
  rw [encodeFL, encodeFM_of_fields hop, hbit, lowBits_or_field, lowBits_or_field]

theorem encodeFS_of_fields (hop : opcodeField w = op) :
    encodeFS op (w.extractLsb' 4 5) (w.extractLsb' 9 5) (w.extractLsb' 14 5) = lowBits w 19 := by
  rw [← lowBits_or_field w 14 5, ← encodeFM_of_fields hop]
  rfl

theorem encodeFA_of_fields (hop : opcodeField w = op) :
    encodeFA op (w.extractLsb' 4 5) (w.extractLsb' 9 5) (w.extractLsb' 14 5) (w.extractLsb' 19 5) = lowBits w 24 := by
  rw [encodeFA, encodeFS_of_fields hop, lowBits_or_field]

theorem encodeFJI_of_fields (hop : opcodeField w = op) : encodeFJI op (w.extractLsb' 4 24).toInt = lowBits w 28 := by
  rw [encodeFJI, BitVec.ofInt_toInt, ← hop]
  exact lowBits_or_field w 4 24

theorem encodeFJIC_of_fields (hop : opcodeField w = op) :
    encodeFJIC op (w.extractLsb' 4 24).toInt (w.extractLsb' 28 4) = lowBits w 32 := by
  rw [encodeFJIC, encodeFJI_of_fields hop, lowBits_or_field]

end Fields

/-- A drawn offset is in range (R109). -/
theorem offsetInRange_toInt (f : BitVec 24) : offsetInRange f.toInt := by
  have hlo := f.le_toInt
  have hhi := f.toInt_lt
  constructor <;> omega

/-- What a format makes of a word is well-formed, and encodes to the bits drawn. -/
theorem encodeWith_of_decodeFormat {e : OpcodeMap} (he : e.WellFormed) {w : Word} {o : Opcode} {i : Instr}
    (ho : opcodeField w = e.opc o) (h : decodeFormat e w o = .ok i) :
    i.WellFormed ∧ encodeWith e i = lowBits w (drawnWidth o) := by
  cases o with
  | alu =>
    obtain ⟨f, hf, hok⟩ | ⟨-, herr⟩ := decodeAlu_cases he w
    · cases hok.symm.trans h
      refine ⟨wellFormed_aluInstr _ _ _ _, ?_⟩
      rw [encodeWith_aluInstr, ← hf]
      exact encodeFA_of_fields ho
    · cases herr.symm.trans h
  | lsl | asr | lsr => cases h; exact ⟨trivial, encodeFS_of_fields ho⟩
  | load | store => cases h; exact ⟨trivial, encodeFM_of_fields ho⟩
  | loadi => cases h; exact ⟨trivial, encodeFL_of_fields ho⟩
  | jmp => cases h; exact ⟨trivial, encodeFJ_of_fields ho⟩
  | jmpi => cases h; exact ⟨offsetInRange_toInt _, encodeFJI_of_fields ho⟩
  | jmpc => cases h; exact ⟨trivial, encodeFJC_of_fields ho⟩
  | jmpic => cases h; exact ⟨offsetInRange_toInt _, encodeFJIC_of_fields ho⟩
  | brk => cases h; exact ⟨trivial, encodeFB_of_fields ho⟩

/-- Settles O31: the format's answer encodes to the bits drawn, which are those `usedBits` keeps. -/
theorem encodeInvertsDecodeOnUsedBits : Obligations.EncodeInvertsDecodeOnUsedBits := by
  intro w i h
  have he := wellFormed_reference
  obtain ⟨o, ho, hd⟩ | ⟨-, hd⟩ := decodeWith_cases he w
  · obtain ⟨hwf, henc⟩ := encodeWith_of_decodeFormat he ho (hd.symm.trans h)
    refine ⟨hwf, henc.trans ?_⟩
    rw [← opcodeField_eq, ho, and_usedBits]
  · cases hd.symm.trans h

/-! ### The bits a format does not draw (R115) -/

/-- A format reads the bits it draws and no others. -/
theorem decodeFormat_congr {e : OpcodeMap} (he : e.WellFormed) {w w' : Word} {o : Opcode}
    (h : lowBits w (drawnWidth o) = lowBits w' (drawnWidth o)) : decodeFormat e w o = decodeFormat e w' o := by
  have hfield (p k : Nat) (hp : p + k ≤ drawnWidth o) : w.extractLsb' p k = w'.extractLsb' p k :=
    extract_eq_of_lowBits_eq h hp
  cases o with
  | alu =>
    obtain ⟨f, hf, hd⟩ | ⟨hno, hd⟩ := decodeAlu_cases he w
    · have hd' := decodeAlu_of_function he ((hfield 19 5 (by decide)).symm.trans hf)
      rw [decodeFormat, decodeFormat, hd, hd', hfield 4 5 (by decide), hfield 9 5 (by decide),
        hfield 14 5 (by decide)]
    · have hd' := decodeAlu_of_no_function (hfield 19 5 (by decide) ▸ hno)
      rw [decodeFormat, decodeFormat, hd, hd', hfield 19 5 (by decide)]
  | lsl | asr | lsr =>
    simp only [decodeFormat, decodeShift, drawThreeRegs_eq]
    rw [hfield 4 5 (by decide), hfield 9 5 (by decide), hfield 14 5 (by decide)]
  | load | store =>
    simp only [decodeFormat, decodeMemory, drawTwoRegs_eq]
    rw [hfield 4 5 (by decide), hfield 9 5 (by decide)]
  | loadi =>
    simp only [decodeFormat, decodeLoadi_eq]
    rw [hfield 4 5 (by decide), hfield 9 5 (by decide),
      hfield 14 16 (by decide), hfield 30 1 (by decide)]
  | jmp =>
    simp only [decodeFormat]
    rw [hfield 4 5 (by decide)]
  | jmpi =>
    simp only [decodeFormat]
    rw [hfield 4 24 (by decide)]
  | jmpc =>
    simp only [decodeFormat, decodeJmpc_eq]
    rw [hfield 4 5 (by decide), hfield 9 4 (by decide)]
  | jmpic =>
    simp only [decodeFormat, decodeJmpic_eq]
    rw [hfield 4 24 (by decide), hfield 28 4 (by decide)]
  | brk => rfl

theorem four_le_drawnWidth (o : Opcode) : 4 ≤ drawnWidth o := by
  cases o <;> decide

theorem decode_congr {w w' : Word} (h : w &&& usedBits (opcodeField w) = w' &&& usedBits (opcodeField w)) :
    decode w' = decode w := by
  have he := wellFormed_reference
  obtain ⟨o, ho, hd⟩ | ⟨hno, hd⟩ := decodeWith_cases he w
  · rw [ho, and_usedBits, and_usedBits] at h
    have ho' : opcodeField w' = OpcodeMap.reference.opc o :=
      (extract_eq_of_lowBits_eq h (four_le_drawnWidth o)).symm.trans ho
    calc decode w' = decodeFormat .reference w' o := decodeWith_of_opcode he ho'
      _ = decodeFormat .reference w o := (decodeFormat_congr he h).symm
      _ = decode w := hd.symm
  · have hop : 12 ≤ (opcodeField w).toNat := (reference_opc_unassigned_iff _).1 hno
    rw [and_usedBits_of_unassigned w hop, and_usedBits_of_unassigned w' hop] at h
    have hsame : opcodeField w = opcodeField w' := extract_eq_of_lowBits_eq h le_rfl
    calc decode w' = .error (.unknownOpcode (opcodeField w')) := decodeWith_of_no_opcode (hsame ▸ hno)
      _ = .error (.unknownOpcode (opcodeField w)) := by rw [hsame]
      _ = decode w := hd.symm

/-- An encoder keeps an offset's low 24 bits alone (R118), so every encoding is that of a well-formed instruction. -/
theorem exists_wellFormed_encodeWith_eq (e : OpcodeMap) (i : Instr) :
    ∃ i' : Instr, i'.WellFormed ∧ encodeWith e i' = encodeWith e i := by
  cases i with
  | jmpi offset =>
    refine ⟨.jmpi (BitVec.ofInt 24 offset).toInt, offsetInRange_toInt _, ?_⟩
    simp only [encodeWith, encodeFJI, BitVec.ofInt_toInt]
  | jmpic offset select =>
    refine ⟨.jmpic (BitVec.ofInt 24 offset).toInt select, offsetInRange_toInt _, ?_⟩
    simp only [encodeWith, encodeFJIC, encodeFJI, BitVec.ofInt_toInt]
  | and | or | nor | xor | add | sub | mul | div | lsl | asr | lsr | load | loadi | store | jmp | jmpc | brk =>
    exact ⟨_, trivial, rfl⟩

theorem encode_eq_and_usedBits (i : Instr) : encode i = encode i &&& usedBits ((encode i).extractLsb' 0 4) := by
  obtain ⟨i', hwf, henc⟩ := exists_wellFormed_encodeWith_eq .reference i
  have hdec : decode (encode i') = .ok i' := decodeInvertsEncode .reference i' wellFormed_reference hwf
  obtain ⟨-, hused⟩ := encodeInvertsDecodeOnUsedBits (encode i') i' hdec
  rwa [encode, henc] at hused

/-- What a mask leaves as it is has nothing outside the mask. -/
theorem and_not_eq_zero_of_eq_and {v mask : Word} (h : v = v &&& mask) : v &&& ~~~mask = 0 := by
  rw [h, BitVec.and_assoc]
  simp

/-- Settles O32: a format reads the bits it draws alone, and an encoding is what its own decoding encodes to. -/
theorem unusedBitsHaveNoEffect : Obligations.UnusedBitsHaveNoEffect := by
  exact ⟨fun w w' h => decode_congr h, fun i => and_not_eq_zero_of_eq_and (encode_eq_and_usedBits i), by decide,
    by decide⟩

/-! ### The LOADI idiom (R120) -/

/-- The two halves of a constant, as LOADI adds them, make it up. -/
theorem loadiAddend_high_add_low (k : Word) :
    loadiAddend (k.extractLsb' 16 16) false + loadiAddend (k.extractLsb' 0 16) true = k := by
  apply BitVec.eq_of_toNat_eq
  simp [loadiAddend, Nat.shiftRight_eq_div_pow]
  omega

/-- Settles O13: the halves are added to 0 in turn, and no other register is written. -/
theorem loadiIdiomBuildsAnyConstant : Obligations.LoadiIdiomBuildsAnyConstant := by
  intro s rd k hrd
  refine ⟨_, _, exec_loadi s rd 0 _ false, exec_loadi _ rd rd _ true, ?_, fun r hr => ?_, rfl⟩
  · rw [State.x_setX_self _ _ hrd, State.x_setX_self _ _ hrd, show s.x 0 = 0 from s.x_zero, zero_add,
      loadiAddend_high_add_low]
  · exact State.x_foldl_setX [(rd, _), (rd, _)] s r (by simpa using hr.symm)

/-! ### Words that do not decode (R113, R114, R202) -/

/-- The fatal condition a refusal of the decoder raises (R202). -/
def fatalKindOf : DecodeError → FatalKind
  | .unknownOpcode op => .unknownOpcode op
  | .unknownAluFunc f => .unknownAluFunc f

/-- A word that does not decode is recorded by its kind at the address it was fetched from (R202). -/
theorem State.raiseUndecoded_advance_fault (s : State) (d : DecodeError) :
    (s.advance.raiseUndecoded d).fault = some ⟨fatalKindOf d, s.pc⟩ := by
  cases d <;> simp [State.raiseUndecoded, fatalKindOf]

/-- Settles O40: the word is refused by its name, and the step records the refusal at the fetched address. -/
theorem unassignedEncodingsAreFatal : Obligations.UnassignedEncodingsAreFatal := by
  intro s w hw
  obtain ⟨hopcode, hfunction⟩ := decodeRefusesExactlyTheUnassigned w
  refine ⟨fun hop => ?_, fun halu hf => ?_⟩
  · have hd : decode w = .error (.unknownOpcode (w.extractLsb' 0 4)) := (hopcode _).2 ⟨rfl, hop⟩
    exact ⟨_, step_undecoded hw hd, s.beginStep.raiseUndecoded_advance_fault _, rfl⟩
  · have hd : decode w = .error (.unknownAluFunc (w.extractLsb' 19 5)) := (hfunction _).2 ⟨halu, rfl, hf⟩
    exact ⟨_, step_undecoded hw hd, s.beginStep.raiseUndecoded_advance_fault _, rfl⟩

end Sys2Proof.Machine

/-! ## The ALU (spec/40_alu.md) -/

namespace Sys2Proof.Machine

/-! ### The words of the ALU (R104, R112, R118) -/

/-- Opcode ALU with a function's value selects that function's instruction. -/
theorem formatFA_aluInstr (f : AluFunc) : FormatFA (aluInstr f) (OpcodeMap.reference.aluf f) := fun _ hop hf =>
  (decodeWith_of_opcode wellFormed_reference (o := .alu) hop).trans (decodeAlu_of_function wellFormed_reference hf)

/-- The word that a well-formed instruction encodes to is its word both ways. -/
theorem encodes_of_encode {i : Instr} {w : Word} (hi : i.WellFormed) (h : encode i = w) : Encodes i w :=
  ⟨h, h ▸ decodeInvertsEncode _ _ wellFormed_reference hi⟩

/-! ### The flags of a result (R140 to R142) -/

theorem unsignedOverflows_natCast (n : Nat) : unsignedOverflows n = true ↔ 2 ^ 32 ≤ n := by
  rw [unsignedOverflows, decide_eq_true_iff]
  omega

/-- C of a subtraction is the borrow (D30). -/
theorem unsignedOverflows_sub (a b : Word) : unsignedOverflows (a.toNat - b.toNat) = true ↔ a.toNat < b.toNat := by
  rw [unsignedOverflows, decide_eq_true_iff]
  omega

theorem signedOverflows_iff (n : Int) : signedOverflows n = true ↔ 2 ^ 31 - 1 < n ∨ n < -2 ^ 31 := by
  rw [signedOverflows, decide_eq_true_iff, or_comm]

/-- N, which is bit 31, says that the signed value is negative. -/
theorem msb_iff_toInt_neg (r : Word) : r.msb = true ↔ r.toInt < 0 := by
  rw [BitVec.msb_eq_toInt, decide_eq_true_iff]

theorem getElem_31_eq_msb (w : Word) : w[31] = w.msb :=
  (BitVec.msb_eq_getLsbD_last w).symm

/-- A sum leaves the signed range exactly when its sign differs from the one its operands share (R147). -/
theorem add_leaves_signedRange_iff (a b : Word) :
    (2 ^ 31 - 1 < a.toInt + b.toInt ∨ a.toInt + b.toInt < -2 ^ 31) ↔ (a[31] = b[31] ∧ (a + b)[31] ≠ a[31]) := by
  calc (2 ^ 31 - 1 < a.toInt + b.toInt ∨ a.toInt + b.toInt < -2 ^ 31)
      ↔ a.saddOverflow b = true := by
        simp only [BitVec.saddOverflow, Bool.or_eq_true, decide_eq_true_iff]
        omega
    _ ↔ (a[31] = b[31] ∧ (a + b)[31] ≠ a[31]) := by
        simp [BitVec.saddOverflow_eq, getElem_31_eq_msb]

/-- A difference leaves the signed range exactly when its operands' signs differ and its own is not that of the first
(R148). -/
theorem sub_leaves_signedRange_iff (a b : Word) :
    (2 ^ 31 - 1 < a.toInt - b.toInt ∨ a.toInt - b.toInt < -2 ^ 31) ↔ (a[31] ≠ b[31] ∧ (a - b)[31] ≠ a[31]) := by
  calc (2 ^ 31 - 1 < a.toInt - b.toInt ∨ a.toInt - b.toInt < -2 ^ 31)
      ↔ a.ssubOverflow b = true := by
        simp only [BitVec.ssubOverflow, Bool.or_eq_true, decide_eq_true_iff]
        omega
    _ ↔ (a[31] ≠ b[31] ∧ (a - b)[31] ≠ a[31]) := by
        rw [BitVec.ssubOverflow_eq, getElem_31_eq_msb, getElem_31_eq_msb, getElem_31_eq_msb]
        cases a.msb <;> simp

/-! ### The low word (R141, R148, R149) -/

theorem toNat_sub_eq_emod (a b : Word) : ((a - b).toNat : Int) = ((a.toNat : Int) - b.toNat) % 2 ^ 32 := by
  rw [BitVec.toNat_sub]
  omega

theorem mul_eq_ofNat (a b : Word) : a * b = BitVec.ofNat 32 (a.toNat * b.toNat) := by
  rw [BitVec.ofNat_mul, BitVec.ofNat_toNat, BitVec.ofNat_toNat, BitVec.setWidth_eq, BitVec.setWidth_eq]

theorem mul_eq_ofInt (a b : Word) : a * b = BitVec.ofInt 32 (a.toInt * b.toInt) := by
  rw [BitVec.ofInt_mul, BitVec.ofInt_toInt, BitVec.ofInt_toInt]

/-! ### How an ALU instruction completes (R140) -/

section Completes

variable {i : Instr} {s : State} {rd : RegIdx}

/-- An instruction that ends in the ALU handler completes, with C and O as its function computes them. -/
theorem aluCompletes_of_finishAlu {q : AluResult} {c o : Prop} (hx : exec i s = .next (s.finishAlu rd q))
    (hc : q.c = true ↔ c) (ho : q.o = true ↔ o) : AluCompletes i s rd q.r c o :=
  ⟨_, hx, s.finishAlu_written rd q, beq_iff_eq, msb_iff_toInt_neg q.r, hc, ho, s.finishAlu_only rd q,
    fun _ => ⟨rfl, rfl⟩⟩

/-- A function that leaves C and O cleared. -/
theorem aluCompletes_of_plain {r : Word} (hx : exec i s = .next (s.finishAlu rd (aluPlain r))) :
    AluCompletes i s rd r False False :=
  aluCompletes_of_finishAlu hx (iff_of_false Bool.false_ne_true id) (iff_of_false Bool.false_ne_true id)

/-- An arithmetic function: C by the unsigned result, O by the signed one. -/
theorem aluCompletes_of_arith {r : Word} {u n : Int} {c : Prop}
    (hx : exec i s = .next (s.finishAlu rd (aluArith r u n))) (hc : unsignedOverflows u = true ↔ c) :
    AluCompletes i s rd r c (2 ^ 31 - 1 < n ∨ n < -2 ^ 31) :=
  aluCompletes_of_finishAlu hx hc (signedOverflows_iff n)

end Completes

/-! ### AND, OR, NOR, XOR (R143 to R146) -/

/-- Settles O3: each of the four ends in the ALU handler with a plain result. -/
theorem logicFunctionsComputeAndClearCarryAndOverflow : Obligations.LogicFunctionsComputeAndClearCarryAndOverflow := by
  refine ⟨⟨formatFA_aluInstr .and, encodes_of_encode trivial (by decide)⟩,
    ⟨formatFA_aluInstr .or, encodes_of_encode trivial (by decide)⟩,
    ⟨formatFA_aluInstr .nor, encodes_of_encode trivial (by decide)⟩,
    ⟨formatFA_aluInstr .xor, encodes_of_encode trivial (by decide)⟩, fun rd rs1 rs2 s => ⟨?_, ?_, ?_, ?_⟩⟩
  · exact aluCompletes_of_plain (exec_and s rd rs1 rs2)
  · exact aluCompletes_of_plain (exec_or s rd rs1 rs2)
  · exact aluCompletes_of_plain (exec_nor s rd rs1 rs2)
  · exact aluCompletes_of_plain (exec_xor s rd rs1 rs2)

/-! ### ADD, SUB, MUL (R147 to R149) -/

/-- Settles O4: C by the unsigned sum, O by the signed one, whose range the sign bits tell. -/
theorem addComputesSumCarryAndOverflow : Obligations.AddComputesSumCarryAndOverflow := by
  refine ⟨⟨formatFA_aluInstr .add, encodes_of_encode trivial (by decide)⟩, ?_⟩
  rintro rd rs1 rs2 s a b r rfl rfl rfl
  exact ⟨aluCompletes_of_arith (exec_add s rd rs1 rs2) (unsignedOverflows_natCast _), BitVec.toNat_add _ _,
    add_leaves_signedRange_iff _ _⟩

/-- Settles O5: C by the borrow, O by the signed difference, whose range the sign bits tell. -/
theorem subComputesDifferenceBorrowAndOverflow : Obligations.SubComputesDifferenceBorrowAndOverflow := by
  refine ⟨⟨formatFA_aluInstr .sub, encodes_of_encode trivial (by decide)⟩, ?_⟩
  rintro rd rs1 rs2 s a b r rfl rfl rfl
  exact ⟨aluCompletes_of_arith (exec_sub s rd rs1 rs2) (unsignedOverflows_sub _ _), toNat_sub_eq_emod _ _,
    sub_leaves_signedRange_iff _ _⟩

/-- Settles O6: the model's product is the low word of both products. -/
theorem mulComputesLowWordCarryAndOverflow : Obligations.MulComputesLowWordCarryAndOverflow := by
  refine ⟨⟨formatFA_aluInstr .mul, encodes_of_encode trivial (by decide)⟩, ?_⟩
  rintro rd rs1 rs2 s a b r rfl rfl rfl
  rw [← mul_eq_ofNat]
  exact ⟨aluCompletes_of_arith (exec_mul s rd rs1 rs2) (unsignedOverflows_natCast _), mul_eq_ofInt _ _⟩

/-! ### DIV (R150, R200, R203) -/

/-- DIV by a divisor that is not 0 ends in the ALU handler. -/
theorem exec_div_of_ne_zero {s : State} {rs2 : RegIdx} (rd rs1 : RegIdx) (h : s.x rs2 ≠ 0) :
    exec (.div rd rs1 rs2) s = .next (s.finishAlu rd (aluDiv (s.x rs1) (s.x rs2))) := by
  rw [exec_div, if_neg h]

/-- DIV by zero is an ALU fault. -/
theorem exec_div_of_eq_zero {s : State} {rs2 : RegIdx} (rd rs1 : RegIdx) (h : s.x rs2 = 0) :
    exec (.div rd rs1 rs2) s = .next (s.raiseAluFault .divisionByZero) := by
  rw [exec_div, if_pos h]

/-- Settles O7: the quotient of words is that of their unsigned values; a zero divisor raises the ALU fault. -/
theorem divComputesQuotientOrFaults : Obligations.DivComputesQuotientOrFaults := by
  refine ⟨⟨formatFA_aluInstr .div, encodes_of_encode trivial (by decide)⟩, ?_⟩
  rintro rd rs1 rs2 s a b rfl rfl
  refine ⟨fun hne => ?_, fun hzero => ?_⟩
  · rw [← BitVec.udiv_def]
    exact aluCompletes_of_plain (exec_div_of_ne_zero rd rs1 hne)
  · exact ⟨_, exec_div_of_eq_zero rd rs1 hzero, rfl⟩

end Sys2Proof.Machine

/-! ## The shifts (spec/41_shift.md) -/

namespace Sys2Proof.Machine

/-! ### The words of the shifts (R104, R118) -/

theorem decodeShift_eq (make : RegIdx → RegIdx → RegIdx → Instr) (w : Word) :
    decodeShift make w = make (w.extractLsb' 4 5) (w.extractLsb' 9 5) (w.extractLsb' 14 5) := by
  rw [decodeShift, drawThreeRegs_eq]

/-- The value of an opcode that `Decode` reads in format FS selects that opcode's instruction. -/
theorem formatFS_of_decodeShift {o : Opcode} {make : RegIdx → RegIdx → RegIdx → Instr}
    (ho : ∀ w, decodeFormat .reference w o = .ok (decodeShift make w)) :
    FormatFS make (OpcodeMap.reference.opc o) := fun w hw =>
  calc decode w = decodeFormat .reference w o := decodeWith_of_opcode wellFormed_reference hw
    _ = .ok (decodeShift make w) := ho w
    _ = .ok (make (w.extractLsb' 4 5) (w.extractLsb' 9 5) (w.extractLsb' 14 5)) := by rw [decodeShift_eq]

/-! ### The amount and the result (R160 to R163) -/

/-- The low 5 bits of a word are its value modulo 32 (R160). -/
theorem State.shiftAmount_eq_mod (s : State) (rs2 : RegIdx) : s.shiftAmount rs2 = (s.x rs2).toNat % 32 := by
  rw [State.shiftAmount, BitVec.toNat_and]
  exact Nat.and_two_pow_sub_one_eq_mod _ 5

theorem toNat_shiftLeft_eq_mul_mod (a : Word) (k : Nat) : (a <<< k).toNat = a.toNat * 2 ^ k % 2 ^ 32 := by
  rw [BitVec.toNat_shiftLeft, Nat.shiftLeft_eq]

/-- Copies of the sign bit make the division round down, not towards zero (R162). -/
theorem toInt_sshiftRight_eq_div (a : Word) (k : Nat) : (a.sshiftRight k).toInt = a.toInt / 2 ^ k := by
  rw [BitVec.toInt_sshiftRight, Int.shiftRight_eq_div_pow]
  norm_cast

theorem toNat_ushiftRight_eq_div (a : Word) (k : Nat) : (a >>> k).toNat = a.toNat / 2 ^ k := by
  rw [BitVec.toNat_ushiftRight, Nat.shiftRight_eq_div_pow]

/-! ### How a register write completes -/

/-- An instruction that ends in one register write completes with the word written. -/
theorem regCompletes_of_setX {i : Instr} {s : State} {rd : RegIdx} {r : Word}
    (hx : exec i s = .next (s.setX rd r)) : RegCompletes i s rd r :=
  ⟨_, hx, s.setX_written rd r, s.setX_only rd r, fun _ => ⟨rfl, rfl⟩⟩

/-- Settles O9: each shift ends in one register write, and each shifted word is a product or a floored quotient. -/
theorem shiftsScaleByPowersOfTwo : Obligations.ShiftsScaleByPowersOfTwo := by
  refine ⟨⟨formatFS_of_decodeShift (o := .lsl) fun _ => rfl, encodes_of_encode trivial (by decide)⟩,
    ⟨formatFS_of_decodeShift (o := .asr) fun _ => rfl, encodes_of_encode trivial (by decide)⟩,
    ⟨formatFS_of_decodeShift (o := .lsr) fun _ => rfl, encodes_of_encode trivial (by decide)⟩, ?_⟩
  rintro rd rs1 rs2 s a k rfl rfl
  rw [← s.shiftAmount_eq_mod]
  refine ⟨⟨_, ?_, toNat_shiftLeft_eq_mul_mod _ _⟩, ⟨_, ?_, toInt_sshiftRight_eq_div _ _⟩,
    ⟨_, ?_, toNat_ushiftRight_eq_div _ _⟩⟩
  · exact regCompletes_of_setX (exec_lsl s rd rs1 rs2)
  · exact regCompletes_of_setX (exec_asr s rd rs1 rs2)
  · exact regCompletes_of_setX (exec_lsr s rd rs1 rs2)

end Sys2Proof.Machine

/-! ## LOAD, LOADI and STORE (spec/42_load_store.md) -/

namespace Sys2Proof.Machine

/-! ### The words of the three instructions (R104, R110) -/

theorem decodeMemory_eq (make : RegIdx → RegIdx → Instr) (w : Word) :
    decodeMemory make w = make (w.extractLsb' 4 5) (w.extractLsb' 9 5) := by
  rw [decodeMemory, drawTwoRegs_eq]

/-- The value of an opcode that `Decode` reads in format FM selects that opcode's instruction. -/
theorem formatFM_of_decodeMemory {o : Opcode} {make : RegIdx → RegIdx → Instr}
    (ho : ∀ w, decodeFormat .reference w o = .ok (decodeMemory make w)) :
    FormatFM make (OpcodeMap.reference.opc o) := fun w hw =>
  calc decode w = decodeFormat .reference w o := decodeWith_of_opcode wellFormed_reference hw
    _ = .ok (decodeMemory make w) := ho w
    _ = .ok (make (w.extractLsb' 4 5) (w.extractLsb' 9 5)) := by rw [decodeMemory_eq]

/-- A field of one bit, compared with 1, is that bit. -/
theorem extract_one_beq_one (w : Word) (n : Nat) : (w.extractLsb' n 1 == 1) = w.getLsbD n := by
  rw [Bool.eq_iff_iff, beq_iff_eq, BitVec.eq_of_getLsbD_eq_iff]
  simp

/-- The fields of LOADI stand where R104 has them, the half selector at bit 30. -/
theorem decode_of_loadi_opcode {w : Word} (h : w.extractLsb' 0 4 = 5) :
    decode w = .ok (.loadi (w.extractLsb' 4 5) (w.extractLsb' 9 5) (w.extractLsb' 14 16) w[30]) :=
  calc decode w = decodeFormat .reference w .loadi := decodeWith_of_opcode wellFormed_reference h
    _ = .ok (decodeLoadi w) := rfl
    _ = .ok (.loadi (w.extractLsb' 4 5) (w.extractLsb' 9 5) (w.extractLsb' 14 16) w[30]) := by
      rw [decodeLoadi_eq, extract_one_beq_one, BitVec.getLsbD_eq_getElem]

/-! ### What LOADI adds (R107, R171) -/

/-- The low half: the immediate itself. -/
theorem add_loadiAddend_low (a : Word) (imm : BitVec 16) :
    a + loadiAddend imm true = BitVec.ofNat 32 (a.toNat + imm.toNat) := by
  apply BitVec.eq_of_toNat_eq
  simp [loadiAddend]

/-- The high half: the immediate times 2^16. -/
theorem add_loadiAddend_high (a : Word) (imm : BitVec 16) :
    a + loadiAddend imm false = BitVec.ofNat 32 (a.toNat + imm.toNat * 2 ^ 16) := by
  apply BitVec.eq_of_toNat_eq
  simp [loadiAddend, Nat.shiftLeft_eq]

/-- Settles O12: LOADI ends in one register write, of the sum with its half's addend. -/
theorem loadiAddsTheImmediate : Obligations.LoadiAddsTheImmediate := by
  refine ⟨fun w hw => decode_of_loadi_opcode hw,
    ⟨encodes_of_encode trivial (by decide), encodes_of_encode trivial (by decide)⟩, fun rd rs imm s => ⟨?_, ?_⟩⟩
  · rw [← add_loadiAddend_low]
    exact regCompletes_of_setX (exec_loadi s rd rs imm true)
  · rw [← add_loadiAddend_high]
    exact regCompletes_of_setX (exec_loadi s rd rs imm false)

/-! ### The read and the write (R62, R64, R170, R172) -/

/-- A read of a written address emits nothing (R62). -/
theorem State.noteRead_diags_of_written {s : State} {a : Word} (h : s.mem.isWritten a = true) :
    (s.noteRead a).diags = s.diags := by
  rw [State.noteRead_diags, if_pos h]

/-- A read of a never-written address emits the diagnostic (R62). -/
theorem State.noteRead_diags_of_unwritten {s : State} {a : Word} (h : s.mem.isWritten a = false) :
    (s.noteRead a).diags = s.diags ++ [.uninitializedRead a] := by
  simp [h]

theorem Memory.sameRam_touch (m : Memory) (a : Word) : SameRam m (m.touch a) := fun b =>
  ⟨m.read_touch a b, m.isWritten_touch a b⟩

/-- Settles O11: LOAD is a noted read, which changes the trace and the host's buffer alone, and then a register write
of the word read. -/
theorem loadReadsTheAddressedWord : Obligations.LoadReadsTheAddressedWord := by
  refine ⟨⟨formatFM_of_decodeMemory (o := .load) fun _ => rfl, encodes_of_encode trivial (by decide)⟩, ?_⟩
  rintro rd rs s a rfl
  exact ⟨_, exec_load s rd rs, (s.noteRead (s.x rs)).setX_written rd (s.mem.read (s.x rs)),
    State.noteRead_diags_of_written, State.noteRead_diags_of_unwritten, fun hwf => Memory.read_unwritten hwf,
    rfl, s.mem.sameRam_touch (s.x rs)⟩

/-- Settles O14: STORE is a write that takes no snapshot, so it is a raw store, which touches no clock input. -/
theorem storeWritesTheAddressedWord : Obligations.StoreWritesTheAddressedWord := by
  refine ⟨⟨formatFM_of_decodeMemory (o := .store) fun _ => rfl, encodes_of_encode trivial (by decide)⟩, ?_⟩
  rintro rd rs s a v rfl rfl hplain
  have hfill (b : Word) : ¬ FilledBySnapshot (s.x rd) (s.x rs) b := fun ⟨htrigger, hnonzero, _⟩ =>
    hplain.elim (· htrigger) hnonzero
  have hraw : s.mem.write (s.x rd) (s.x rs) = s.mem.rawStore (s.x rd) (s.x rs) := s.mem.write_plain hplain
  refine ⟨_, exec_store s rd rs, rfl, s.mem.read_write_self _ _, (s.mem.isWritten_write _ _ _).2 (.inl rfl),
    fun b hb => s.mem.write_frame hb (hfill b), ?_, ?_⟩ <;>
  · rw [hraw]
    rfl

end Sys2Proof.Machine

/-! ## The jumps (spec/43_jump.md) -/

namespace Sys2Proof.Machine

/-! ### The target and the test (R39, R108, R181) -/

/-- The relative target of an offset field is the pc plus the field's sign extension (R109, R181). -/
theorem State.relativeTarget_toInt (s : State) (field : BitVec 24) :
    s.relativeTarget field.toInt = s.pc + field.signExtend 32 := by
  rw [State.relativeTarget, BitVec.signExtend]

/-- The machine's select test is `cond(select)` of R108. -/
theorem Flags.selected_iff (f : Flags) (select : BitVec 4) :
    f.selected select = true ↔ SomeSelectedFlag f select := by
  simp [Flags.selected, SomeSelectedFlag, or_assoc]

/-! ### How a jump completes (R180 to R183) -/

/-- An instruction that writes the pc alone completes as a jump to the word written. -/
theorem jumpCompletes_of_pc {i : Instr} {s : State} {target : Word}
    (hx : exec i s = .next { s with pc := target }) : JumpCompletes i s target :=
  ⟨_, hx, rfl, rfl, fun _ => ⟨rfl, rfl⟩⟩

section Completes

variable (s : State) (rs : RegIdx) (field : BitVec 24) {select : BitVec 4}

theorem jmp_completes : JumpCompletes (.jmp rs) s (s.x rs) := jumpCompletes_of_pc (exec_jmp s rs)

theorem jmpi_completes : JumpCompletes (.jmpi field.toInt) s (s.pc + field.signExtend 32) :=
  jumpCompletes_of_pc (by rw [exec_jmpi, s.relativeTarget_toInt])

variable {s}

theorem jmpc_completes_taken (h : SomeSelectedFlag s.flags select) : JumpCompletes (.jmpc rs select) s (s.x rs) :=
  jumpCompletes_of_pc (by rw [exec_jmpc, if_pos ((s.flags.selected_iff select).2 h)])

theorem jmpc_completes_notTaken (h : ¬ SomeSelectedFlag s.flags select) : JumpCompletes (.jmpc rs select) s s.pc :=
  jumpCompletes_of_pc (by rw [exec_jmpc, if_neg (mt (s.flags.selected_iff select).1 h)])

theorem jmpic_completes_taken (h : SomeSelectedFlag s.flags select) :
    JumpCompletes (.jmpic field.toInt select) s (s.pc + field.signExtend 32) :=
  jumpCompletes_of_pc (by rw [exec_jmpic, if_pos ((s.flags.selected_iff select).2 h), s.relativeTarget_toInt])

theorem jmpic_completes_notTaken (h : ¬ SomeSelectedFlag s.flags select) :
    JumpCompletes (.jmpic field.toInt select) s s.pc :=
  jumpCompletes_of_pc (by rw [exec_jmpic, if_neg (mt (s.flags.selected_iff select).1 h)])

end Completes

/-- Settles O20: each jump writes the pc alone, by the select test where it has one. -/
theorem jumpsSetThePcWhenTaken : Obligations.JumpsSetThePcWhenTaken := by
  have hdecode (o : Opcode) (w : Word) (hw : w.extractLsb' 0 4 = OpcodeMap.reference.opc o) :
      decode w = decodeFormat .reference w o := decodeWith_of_opcode wellFormed_reference hw
  refine ⟨hdecode .jmp, hdecode .jmpi, hdecode .jmpc, hdecode .jmpic, ?_, fun rs field select s => ?_⟩
  · exact ⟨encodes_of_encode trivial (by decide), encodes_of_encode (by decide) (by decide),
      encodes_of_encode (by decide) (by decide), encodes_of_encode trivial (by decide),
      encodes_of_encode (by decide) (by decide), encodes_of_encode (by decide) (by decide)⟩
  · exact ⟨jmp_completes s rs, jmpi_completes s field,
      fun h => ⟨jmpc_completes_taken rs h, jmpic_completes_taken field h⟩,
      fun h => ⟨jmpc_completes_notTaken rs h, jmpic_completes_notTaken field h⟩⟩

/-! ### The step of a jump, and the fetch after it (R38, R44, R46, R184) -/

/-- A jump that goes somewhere has an encoding (R109). -/
theorem State.JumpsTo.wellFormed {s : State} {i : Instr} {target : Word} (h : s.JumpsTo i target) :
    i.WellFormed := by
  cases h with
  | jmp | jmpcTaken | jmpcNotTaken => exact trivial
  | jmpi field => exact offsetInRange_toInt field
  | jmpicTaken field | jmpicNotTaken field => exact offsetInRange_toInt field

/-- A jump fetched at `s.pc` completes in the state that the step runs it in, with the pc already past it (R36). -/
theorem State.JumpsTo.completes {s : State} {i : Instr} {target : Word} (h : s.JumpsTo i target) :
    JumpCompletes i s.beginStep.advance target := by
  cases h with
  | jmp rs => exact jmp_completes s.beginStep.advance rs
  | jmpi field => exact jmpi_completes s.beginStep.advance field
  | jmpcTaken rs select h => exact jmpc_completes_taken (s := s.beginStep.advance) rs h
  | jmpcNotTaken rs select h => exact jmpc_completes_notTaken (s := s.beginStep.advance) rs h
  | jmpicTaken field select h => exact jmpic_completes_taken (s := s.beginStep.advance) field h
  | jmpicNotTaken field select h => exact jmpic_completes_notTaken (s := s.beginStep.advance) field h

/-- What the step's end asks of a state is kept by a write of the pc alone (R46). -/
theorem OnlyPc.keeps {s t : State} (h : OnlyPc s t) : t.mode = s.mode ∧ t.fault = s.fault ∧ t.code = s.code := by
  rw [OnlyPc] at h
  rw [h]
  exact ⟨rfl, rfl, rfl⟩

/-- The step of a jump ends at its target with code memory kept and no fault, Halted exactly at CODE_LEN (R46). -/
theorem step_of_jumpCompletes {s : State} {w : Word} {i : Instr} {target : Word} (hw : s.Fetches w)
    (hd : decode w = .ok i) (hj : JumpCompletes i s.beginStep.advance target) :
    ∃ t : State, step s = .next t ∧ t.pc = target ∧ t.code = s.code ∧ t.fault = none ∧
      t.mode = if target.toNat = s.code.length then .halted else .running := by
  have ⟨hrunning, hnone, _⟩ := hw
  obtain ⟨u, hx, hpc, honly, -⟩ := hj
  obtain ⟨hmode, hfault, hcode⟩ := honly.keeps
  refine ⟨u.endStep, step_decoded hw hd hx, hpc, hcode, hfault.trans hnone, ?_⟩
  simp [hpc, hcode, hfault, hmode, hnone, hrunning]

/-- A running core with its pc beyond code memory enters the fault state with that pc (R38, R44). -/
theorem step_fault_of_length_lt_pc {s : State} (hf : s.fault = none) (hm : s.mode = .running)
    (hpc : s.code.length < s.pc.toNat) :
    ∃ t : State, step s = .next t ∧ t.fault = some ⟨.pcOutOfBounds, s.pc⟩ :=
  ⟨_, step_outOfBounds hf hm (List.getElem?_eq_none hpc.le), rfl⟩

/-- Settles O21: the jump's own step makes no test of the target but for halting; the next step's fetch does. -/
theorem jumpTargetsAreCheckedAtTheNextFetch : Obligations.JumpTargetsAreCheckedAtTheNextFetch := by
  intro s i target hj hw
  have hd : decode (encode i) = .ok i := decodeInvertsEncode _ _ wellFormed_reference hj.wellFormed
  obtain ⟨t, hstep, rfl, hcode, hfault, hmode⟩ := step_of_jumpCompletes hw hd hj.completes
  refine ⟨t, hstep, rfl, hcode, fun heq => ?_, fun hlt => ?_, fun hgt => ?_⟩
  · rw [hmode, if_pos heq]
  · rw [hmode, if_neg hlt.ne]
  · have hrunning : t.mode = .running := by rw [hmode, if_neg hgt.ne']
    exact ⟨hrunning, hfault, step_fault_of_length_lt_pc hfault hrunning (by rwa [hcode])⟩

end Sys2Proof.Machine

/-! ## BREAK (spec/44_break.md) -/

namespace Sys2Proof.Machine

/-- A lookup in a table that differs from another by the record put at `a` (R222). -/
theorem State.breakpointAt_of_put {s t : State} {a : Word} {r : Breakpoint}
    (h : t.breakpoints = SortedMap.put a.toNat r s.breakpoints) (b : Word) :
    t.breakpointAt b = if b = a then some r else s.breakpointAt b := by
  simp only [State.breakpointAt, h, SortedMap.get_put, Word.toNat_eq_iff, eq_comm (a := a)]

/-- The breakpoint stop of R190. -/
theorem exec_brk_of_enabled {s : State} {saved : Word} (h : s.breakpointAt s.instrAddr = some ⟨saved, true⟩) :
    exec .brk s = .next { s with
      pc := s.instrAddr, diags := s.diags ++ [.breakpointHit s.instrAddr]
      code := s.code.set s.instrAddr.toNat saved
      breakpoints := SortedMap.put s.instrAddr.toNat ⟨saved, false⟩ s.breakpoints, atBreakpoint := true } := by
  obtain ⟨saved', hrecord, hexec⟩ | ⟨hnone, -⟩ := exec_brk_cases s
  · cases hrecord.symm.trans h
    exact hexec
  · exact absurd h (hnone saved)

/-- The fatal case of R190 and R204, for a disabled record and for none. -/
theorem exec_brk_of_not_enabled {s : State} (h : ∀ saved, s.breakpointAt s.instrAddr ≠ some ⟨saved, true⟩) :
    exec .brk s = .next { s with
      pc := s.instrAddr, diags := s.diags ++ [.breakpointHit s.instrAddr]
      fault := some ⟨.breakWithoutRecord, s.instrAddr⟩ } := by
  obtain ⟨saved, hrecord, -⟩ | ⟨-, hexec⟩ := exec_brk_cases s
  · exact absurd hrecord (h saved)
  · exact hexec

/-- Settles O23: the two answers of BREAK; the table of the first is the old one with the disabled record put at the
BREAK's address (log entry 11). -/
theorem breakRestoresTheWordOrFaults : Obligations.BreakRestoresTheWordOrFaults := by
  refine ⟨fun w hw => decodeWith_of_opcode wellFormed_reference (o := .brk) hw,
    encodes_of_encode trivial (by decide), ?_⟩
  rintro s a rfl
  refine ⟨fun saved hrecord => ?_, fun hnone => exec_brk_of_not_enabled hnone⟩
  refine ⟨_, exec_brk_of_enabled hrecord, ?_, fun b hb => ?_, rfl⟩
  · exact (State.breakpointAt_of_put rfl _).trans (if_pos rfl)
  · exact (State.breakpointAt_of_put rfl b).trans (if_neg hb)

end Sys2Proof.Machine

/-! ## The fault state, the Breakpoint Manager and the invariant (spec/60_exceptions.md) -/

namespace Sys2Proof.Machine

/-! ### Putting and erasing in a canonical table (R222) -/

/-- In a canonical map, to be listed is to be found. -/
theorem SortedMap.mem_iff_get {α : Type} {m : List (Nat × α)} (h : SortedMap.wf m) {k : Nat} {v : α} :
    (k, v) ∈ m ↔ SortedMap.get k m = some v :=
  ⟨fun hmem => SortedMap.get_eq_of_mem h hmem, SortedMap.mem_of_get⟩

/-- The entries after a `put`: the new one, and the old ones at other keys. -/
theorem SortedMap.mem_put_of_wf {α : Type} {k : Nat} {v : α} {m : List (Nat × α)} (h : SortedMap.wf m)
    {r : Nat × α} (hr : r ∈ SortedMap.put k v m) : r = (k, v) ∨ (r ∈ m ∧ r.1 ≠ k) := by
  obtain ⟨j, u⟩ := r
  rw [SortedMap.mem_iff_get (SortedMap.wf_put h), SortedMap.get_put] at hr
  split_ifs at hr with hkj
  · cases hr
    exact .inl (by rw [hkj])
  · exact .inr ⟨SortedMap.mem_of_get hr, Ne.symm hkj⟩

/-- Erasing a key undoes what a `put` did at it. -/
theorem SortedMap.erase_put {α : Type} (k : Nat) (v : α) (m : List (Nat × α)) :
    SortedMap.erase k (SortedMap.put k v m) = SortedMap.erase k m := by
  induction m with
  | nil => simp [SortedMap.put, SortedMap.erase]
  | cons r rest ih =>
    obtain ⟨j, u⟩ := r
    rw [SortedMap.put]
    split_ifs with hlt heq
    · simp [SortedMap.erase]
    · simp [SortedMap.erase, heq]
    · simp [SortedMap.erase, heq, ih]

/-- Erasing a key that is not listed changes nothing. -/
theorem SortedMap.erase_of_get_eq_none {α : Type} {k : Nat} {m : List (Nat × α)} (h : SortedMap.get k m = none) :
    SortedMap.erase k m = m := by
  induction m with
  | nil => rfl
  | cons r rest ih =>
    obtain ⟨j, u⟩ := r
    rw [SortedMap.get] at h
    split_ifs at h with hne
    rw [SortedMap.erase, if_neg hne, ih h]

/-- The keys of a canonical map name its entries, so no entry stands twice. -/
theorem SortedMap.nodup_map_fst {α : Type} {m : List (Nat × α)} (h : SortedMap.wf m) : (m.map Prod.fst).Nodup :=
  List.Pairwise.imp Nat.ne_of_lt h

/-- Writing back the word that stood at an index undoes a write there. -/
theorem set_set_of_getElem?_eq_some {α : Type} {l : List α} {k : Nat} {w : α} (h : l[k]? = some w) (v : α) :
    (l.set k v).set k w = l := by
  obtain ⟨hk, rfl⟩ := List.getElem?_eq_some_iff.1 h
  rw [List.set_set, List.set_getElem_self]

/-! ### What `add` and `remove` answer (R223, R225) -/

section Manager

variable {s : State} {e : OpcodeMap} {a : Word}

/-- `t` differs from `s` in code memory and in the breakpoint table at most. -/
def OnlyBreakpoints (s t : State) : Prop := t = { s with code := t.code, breakpoints := t.breakpoints }

theorem State.addBreakpoint_of_beyond (h : s.code.length ≤ a.toNat) : s.addBreakpoint e a = s := by
  rw [State.addBreakpoint, List.getElem?_eq_none h]

theorem State.addBreakpoint_of_enabled {saved : Word} (h : s.breakpointAt a = some ⟨saved, true⟩) :
    s.addBreakpoint e a = s := by
  obtain ⟨-, hadd⟩ | ⟨w, -, ⟨hb, -⟩ | ⟨-, -, hadd⟩ | ⟨saved', hb, -⟩⟩ := s.addBreakpoint_cases e a
  · exact hadd
  · cases hb.symm.trans h
  · exact hadd
  · cases hb.symm.trans h

/-- With no record at a code address, the word there is saved (R223). -/
theorem State.addBreakpoint_of_unknown {w : Word} (hc : s.code[a.toNat]? = some w) (h : s.breakpointAt a = none) :
    s.addBreakpoint e a = (s.setBreakpoint a ⟨w, true⟩).setCode a (sentinelWord e) := by
  simp [State.addBreakpoint, hc, h]

/-- Re-enabling keeps the saved word (R223, D21). -/
theorem State.addBreakpoint_of_disabled {w saved : Word} (hc : s.code[a.toNat]? = some w)
    (h : s.breakpointAt a = some ⟨saved, false⟩) :
    s.addBreakpoint e a = (s.setBreakpoint a ⟨saved, true⟩).setCode a (sentinelWord e) := by
  simp [State.addBreakpoint, hc, h]

/-- `add` does nothing, or it enables a record at a code address and plants the sentinel there. -/
theorem State.addBreakpoint_eq_self_or_patched (s : State) (e : OpcodeMap) (a : Word) :
    s.addBreakpoint e a = s ∨
      (a.toNat < s.code.length ∧ ∃ saved,
        s.addBreakpoint e a = (s.setBreakpoint a ⟨saved, true⟩).setCode a (sentinelWord e)) := by
  obtain ⟨-, hadd⟩ | ⟨w, hc, ⟨-, hadd⟩ | ⟨saved, -, hadd⟩ | ⟨saved, -, hadd⟩⟩ := s.addBreakpoint_cases e a
  · exact .inl hadd
  · exact .inr ⟨(List.getElem?_eq_some_iff.1 hc).1, w, hadd⟩
  · exact .inl hadd
  · exact .inr ⟨(List.getElem?_eq_some_iff.1 hc).1, saved, hadd⟩

theorem State.removeBreakpoint_of_unknown (h : s.breakpointAt a = none) : s.removeBreakpoint a = s := by
  simp [State.removeBreakpoint, h]

theorem State.removeBreakpoint_of_record {saved : Word} {on : Bool} (h : s.breakpointAt a = some ⟨saved, on⟩) :
    s.removeBreakpoint a = (if on then s.setCode a saved else s).deleteBreakpoint a := by
  simp [State.removeBreakpoint, h]

/-- `remove` leaves the table without a record at its address. -/
theorem State.removeBreakpoint_breakpoints (s : State) (a : Word) :
    (s.removeBreakpoint a).breakpoints = SortedMap.erase a.toNat s.breakpoints := by
  obtain ⟨hb, h⟩ | ⟨saved, -, h⟩ | ⟨saved, -, h⟩ := s.removeBreakpoint_cases a <;> rw [h]
  · exact (SortedMap.erase_of_get_eq_none hb).symm
  · rfl
  · rfl

/-- Code memory after `remove` is the old one but for at most one word, that at its address. -/
theorem State.removeBreakpoint_code (s : State) (a : Word) :
    (s.removeBreakpoint a).code = s.code ∨ ∃ w, (s.removeBreakpoint a).code = s.code.set a.toNat w := by
  obtain ⟨-, h⟩ | ⟨saved, -, h⟩ | ⟨saved, -, h⟩ := s.removeBreakpoint_cases a <;> rw [h]
  · exact .inl rfl
  · exact .inr ⟨saved, rfl⟩
  · exact .inl rfl

theorem State.removeBreakpoint_only (s : State) (a : Word) : OnlyBreakpoints s (s.removeBreakpoint a) := by
  obtain ⟨-, h⟩ | ⟨saved, -, h⟩ | ⟨saved, -, h⟩ := s.removeBreakpoint_cases a <;> rw [h] <;> rfl

/-- A lookup in a table that differs from another by the record erased at `a`. -/
theorem State.breakpointAt_of_erase {t : State} (h : t.breakpoints = SortedMap.erase a.toNat s.breakpoints)
    (b : Word) : t.breakpointAt b = if b = a then none else s.breakpointAt b := by
  simp only [State.breakpointAt, h, SortedMap.get_erase, Word.toNat_eq_iff, eq_comm (a := a)]

end Manager

/-! ### The invariant's parts (R190, R200, R222, R227) -/

section Invariant

variable {s t : State} {e : OpcodeMap}

/-- R227 speaks of code memory and of the table alone. -/
theorem State.BreakpointsHold.congr (h : s.BreakpointsHold e) (hcode : t.code = s.code)
    (htable : t.breakpoints = s.breakpoints) : t.BreakpointsHold e := by
  rwa [State.BreakpointsHold, hcode, htable]

/-- R227 is kept where a record is put at a code address together with the word it asks for there. -/
theorem State.BreakpointsHold.of_put (h : s.BreakpointsHold e) {a : Word} (ha : a.toNat < s.code.length)
    {b : Breakpoint} (hcode : t.code = s.code.set a.toNat (if b.enabled then sentinelWord e else b.saved))
    (htable : t.breakpoints = SortedMap.put a.toNat b s.breakpoints) : t.BreakpointsHold e := by
  obtain ⟨hwf, hrecords⟩ := h
  rw [State.BreakpointsHold, hcode, htable]
  refine ⟨SortedMap.wf_put hwf, fun r hr => ?_⟩
  obtain rfl | ⟨hold, hne⟩ := SortedMap.mem_put_of_wf hwf hr
  · exact ⟨a.isLt, List.getElem?_set_self ha⟩
  · rw [List.getElem?_set_ne hne.symm]
    exact hrecords r hold

/-- R227 is kept where the record at `a` goes and code memory changes at `a` at most. -/
theorem State.BreakpointsHold.of_erase (h : s.BreakpointsHold e) {a : Word}
    (hcode : t.code = s.code ∨ ∃ w, t.code = s.code.set a.toNat w)
    (htable : t.breakpoints = SortedMap.erase a.toNat s.breakpoints) : t.BreakpointsHold e := by
  obtain ⟨hwf, hrecords⟩ := h
  rw [State.BreakpointsHold, htable]
  refine ⟨SortedMap.wf_erase hwf, fun r hr => ?_⟩
  obtain ⟨hold, hne⟩ := SortedMap.mem_erase.1 hr
  have hword : t.code[r.1]? = s.code[r.1]? := by
    obtain hc | ⟨w, hc⟩ := hcode
    · rw [hc]
    · rw [hc, List.getElem?_set_ne hne.symm]
  rw [hword]
  exact hrecords r hold

/-- A running core that is not at a breakpoint has only RAM and the table to answer for. -/
theorem State.inv_of_running (hmem : s.mem.wf) (hbp : s.BreakpointsHold e) (hmode : s.mode = .running)
    (hstop : s.atBreakpoint = false) : s.Inv e :=
  ⟨hmem, hbp, by simp [hmode], by simp [hstop]⟩

/-- The halt test establishes what the invariant says of Halted, and keeps a breakpoint stop running (R46). -/
theorem State.inv_endStep (hmem : s.mem.wf) (hbp : s.BreakpointsHold e) (hmode : s.mode = .running)
    (hstop : s.atBreakpoint = true → s.fault = none ∧ s.pc.toNat < s.code.length) : s.endStep.Inv e := by
  refine ⟨hmem, hbp.congr rfl rfl, fun hhalted => ?_, fun hat => ?_⟩
  · simpa [hmode] using hhalted
  · obtain ⟨hfault, hpc⟩ := hstop hat
    simp [hmode, hfault, hpc, hpc.ne]

/-- A step that has faulted, or whose pc is not CODE_LEN, ends as the instruction left it (R46). -/
theorem State.endStep_eq_self (h : ¬ (s.fault = none ∧ s.pc.toNat = s.code.length)) : s.endStep = s := by
  rw [State.endStep, if_neg h]

theorem State.Inv.not_atBreakpoint_of_halted (h : s.Inv e) (hm : s.mode = .halted) : s.atBreakpoint = false := by
  obtain ⟨-, -, -, hstop⟩ := h
  by_contra hat
  obtain ⟨hrunning, -, -⟩ := hstop (Bool.eq_true_of_not_eq_false hat)
  cases hm.symm.trans hrunning

theorem State.Inv.running_of_fault (h : s.Inv e) (hf : s.fault ≠ none) :
    s.mode = .running ∧ s.atBreakpoint = false := by
  obtain ⟨-, -, hhalt, hstop⟩ := h
  constructor
  · cases hm : s.mode with
    | running => rfl
    | halted => exact absurd (hhalt hm).1 hf
  · by_contra hat
    obtain ⟨-, hnone, -⟩ := hstop (Bool.eq_true_of_not_eq_false hat)
    exact hf hnone

end Invariant

/-! ### What a step does to RAM's form, the table and `at_breakpoint` (R42, R190) -/

@[simp] theorem State.raiseUndecoded_regs (s : State) (d : DecodeError) : (s.raiseUndecoded d).regs = s.regs := by
  cases d <;> rfl
@[simp] theorem State.raiseUndecoded_breakpoints (s : State) (d : DecodeError) :
    (s.raiseUndecoded d).breakpoints = s.breakpoints := by
  cases d <;> rfl
@[simp] theorem State.raiseUndecoded_atBreakpoint (s : State) (d : DecodeError) :
    (s.raiseUndecoded d).atBreakpoint = s.atBreakpoint := by
  cases d <;> rfl

theorem State.wf_beginStep_mem {s : State} (h : s.mem.wf) : s.beginStep.mem.wf := by
  rw [State.beginStep_mem]
  split_ifs
  · exact Memory.wf_write h _ _
  · exact h

theorem exec_mem_wf {i : Instr} {s t : State} (hx : exec i s = .next t) (h : s.mem.wf) : t.mem.wf := by
  obtain hm | ⟨rd, rs, -, hm⟩ | ⟨rd, rs, -, hm⟩ := exec_mem_cases hx <;> rw [hm]
  · exact h
  · exact Memory.wf_touch h _
  · exact Memory.wf_write h _ _

/-- An instruction leaves code memory, the table and `at_breakpoint` as they were, or it is a BREAK that stops at an
enabled record (R34, R190). -/
theorem exec_keeps_breakpoints_or_stops {i : Instr} {s t : State} (hx : exec i s = .next t) :
    (t.code = s.code ∧ t.breakpoints = s.breakpoints ∧ t.atBreakpoint = s.atBreakpoint) ∨
      (t.pc = s.instrAddr ∧ t.fault = s.fault ∧ ∃ saved, t.code = s.code.set s.instrAddr.toNat saved ∧
        t.breakpoints = SortedMap.put s.instrAddr.toNat ⟨saved, false⟩ s.breakpoints) := by
  cases i with
  | brk =>
    obtain ⟨saved, -, hb⟩ | ⟨-, hb⟩ := exec_brk_cases s <;> cases hb.symm.trans hx
    · exact .inr ⟨rfl, rfl, saved, rfl, rfl⟩
    · exact .inl ⟨rfl, rfl, rfl⟩
  | div rd rs1 rs2 =>
    rw [exec_div] at hx
    split_ifs at hx <;> cases hx <;> exact .inl ⟨rfl, rfl, rfl⟩
  | and | or | nor | xor | add | sub | mul | lsl | asr | lsr | load | loadi | store | jmp | jmpi | jmpc | jmpic =>
    cases hx
    exact .inl ⟨rfl, rfl, rfl⟩

/-- Settles O50: by the cases of a step. Only a BREAK that stops writes code memory and the table, and it leaves the
saved word under a disabled record at a code address. -/
theorem stepKeepsTheInvariant : Obligations.StepKeepsTheInvariant := by
  intro e s t h hstep
  have ⟨hmem, hbp, _, _⟩ := h
  have hmem' : s.beginStep.mem.wf := State.wf_beginStep_mem hmem
  obtain ⟨hf, ⟨-, rfl⟩ | ⟨hm, -, rfl⟩ | ⟨w, d, ⟨hm, -, -⟩, -, rfl⟩ | ⟨w, i, u, ⟨hm, -, hc⟩, -, hx, rfl⟩⟩ :=
    stepWith_cases hstep
  · exact h
  · exact State.inv_of_running hmem' (hbp.congr rfl rfl) hm rfl
  · exact State.inv_of_running (by simpa using hmem') (hbp.congr (by simp) (by simp)) (by simpa using hm) (by simp)
  · have hpc : s.pc.toNat < s.code.length := (List.getElem?_eq_some_iff.1 hc).1
    have hrunning : u.mode = .running := (exec_effect hx).mode_eq.trans hm
    have humem : u.mem.wf := exec_mem_wf hx hmem'
    obtain ⟨hcode, htable, hat⟩ | ⟨hupc, hufault, saved, hcode, htable⟩ := exec_keeps_breakpoints_or_stops hx
    · exact State.inv_endStep humem (hbp.congr hcode htable) hrunning (by simp [hat])
    · rw [State.instrAddr_advance, State.beginStep_pc] at hupc hcode htable
      refine State.inv_endStep humem (hbp.of_put (b := ⟨saved, false⟩) hpc hcode htable) hrunning
        fun _ => ⟨hufault.trans hf, ?_⟩
      simpa [hupc, hcode] using hpc

/-! ### The Breakpoint Manager (R222 to R226) -/

/-- What the invariant asks for beside the table stands where the Breakpoint Manager does not write. -/
theorem State.Inv.of_onlyBreakpoints {s t : State} {e : OpcodeMap} (h : s.Inv e) (honly : OnlyBreakpoints s t)
    (hlen : t.code.length = s.code.length) (hbp : t.BreakpointsHold e) : t.Inv e := by
  obtain ⟨hmem, -, hhalt, hstop⟩ := h
  rw [OnlyBreakpoints] at honly
  have hmode : t.mode = s.mode := by rw [honly]
  have hfault : t.fault = s.fault := by rw [honly]
  have hpc : t.pc = s.pc := by rw [honly]
  have hat : t.atBreakpoint = s.atBreakpoint := by rw [honly]
  have hram : t.mem = s.mem := by rw [honly]
  rw [State.Inv, hram, hmode, hfault, hpc, hat, hlen]
  exact ⟨hmem, hbp, hhalt, hstop⟩

/-- Settles O53: `add` puts an enabled record with the sentinel under it, `remove` erases a record; a register is no
part of the invariant. -/
theorem hostOperationsKeepTheInvariant : Obligations.HostOperationsKeepTheInvariant := by
  intro e s a v r h
  have ⟨_, hbp, _, _⟩ := h
  refine ⟨?_, ?_, h⟩
  · obtain hadd | ⟨ha, saved, hadd⟩ := s.addBreakpoint_eq_self_or_patched e a <;> rw [hadd]
    · exact h
    · exact h.of_onlyBreakpoints rfl (by simp) (hbp.of_put ha rfl rfl)
  · have hcode := s.removeBreakpoint_code a
    refine h.of_onlyBreakpoints (s.removeBreakpoint_only a) ?_
      (hbp.of_erase hcode (s.removeBreakpoint_breakpoints a))
    obtain hc | ⟨w, hc⟩ := hcode <;> simp [hc]

/-- Settles O25: one equation for each case of `add`; a record is put at the address alone. -/
theorem addBreakpointPatchesOnce : Obligations.AddBreakpointPatchesOnce := by
  intro e s a
  refine ⟨State.addBreakpoint_of_beyond, fun _ => State.addBreakpoint_of_enabled, fun w saved hc hrecord => ?_⟩
  have hadd : s.addBreakpoint e a =
      (s.setBreakpoint a ⟨if s.breakpointAt a = none then w else saved, true⟩).setCode a (sentinelWord e) := by
    obtain hnone | hdisabled := hrecord
    · rw [State.addBreakpoint_of_unknown hc hnone, if_pos hnone]
    · rw [State.addBreakpoint_of_disabled hc hdisabled, if_neg (by simp [hdisabled])]
  rw [hadd]
  refine ⟨rfl, ?_, fun b hb => ?_, rfl⟩
  · exact (State.breakpointAt_of_put rfl a).trans (if_pos rfl)
  · exact (State.breakpointAt_of_put rfl b).trans (if_neg hb)

/-- Settles O26: the record is erased at the address alone; the word goes back by the equation of `remove`. -/
theorem removeBreakpointRestoresAndDeletes : Obligations.RemoveBreakpointRestoresAndDeletes := by
  intro s a
  refine ⟨State.removeBreakpoint_of_unknown, fun saved on hrecord => ⟨?_, ?_, fun b hb => ?_, ?_⟩⟩
  · rw [State.removeBreakpoint_of_record hrecord]
    cases on <;> rfl
  · exact (State.breakpointAt_of_erase (s.removeBreakpoint_breakpoints a) a).trans (if_pos rfl)
  · exact (State.breakpointAt_of_erase (s.removeBreakpoint_breakpoints a) b).trans (if_neg hb)
  · exact s.removeBreakpoint_only a

/-- Removing the record that `add` put gives the word and the table back. -/
theorem State.removeBreakpoint_addBreakpoint {s : State} (e : OpcodeMap) {a : Word} (h : s.breakpointAt a = none) :
    (s.addBreakpoint e a).removeBreakpoint a = s := by
  cases hc : s.code[a.toNat]? with
  | none =>
    rw [State.addBreakpoint_of_beyond (List.getElem?_eq_none_iff.1 hc), State.removeBreakpoint_of_unknown h]
  | some w =>
    have hrecord : (s.addBreakpoint e a).breakpointAt a = some ⟨w, true⟩ := by
      rw [State.addBreakpoint_of_unknown hc h]
      exact (State.breakpointAt_of_put rfl a).trans (if_pos rfl)
    have hcode := set_set_of_getElem?_eq_some hc (sentinelWord e)
    have htable : SortedMap.erase a.toNat (SortedMap.put a.toNat ⟨w, true⟩ s.breakpoints) = s.breakpoints := by
      rw [SortedMap.erase_put, SortedMap.erase_of_get_eq_none h]
    rw [State.removeBreakpoint_of_record hrecord, State.addBreakpoint_of_unknown hc h, if_pos rfl]
    simp only [State.deleteBreakpoint, State.setCode, State.setBreakpoint, hcode, htable]

/-- Settles O27: `remove` erases the record that `add` put and writes back the word that it saved. -/
theorem removeUndoesAdd : Obligations.RemoveUndoesAdd := fun e _ _ _ hnone =>
  ⟨State.removeBreakpoint_addBreakpoint e hnone, State.removeBreakpoint_of_unknown hnone⟩

/-- An address and a state stand in the listing exactly where a record with that state does. -/
theorem State.mem_breakpointEntries_iff {s : State} (h : SortedMap.wf s.breakpoints) (a : Word) (on : Bool) :
    (a.toNat, on) ∈ s.breakpointEntries ↔ ∃ saved, s.breakpointAt a = some ⟨saved, on⟩ := by
  simp only [State.breakpointEntries, List.mem_map, Prod.mk.injEq, State.breakpointAt]
  constructor
  · rintro ⟨⟨k, saved, on⟩, hr, rfl, rfl⟩
    exact ⟨saved, SortedMap.get_eq_of_mem h hr⟩
  · rintro ⟨saved, hget⟩
    exact ⟨_, SortedMap.mem_of_get hget, rfl, rfl⟩

theorem State.nodup_breakpointEntries {s : State} (h : SortedMap.wf s.breakpoints) : s.breakpointEntries.Nodup := by
  refine List.Nodup.of_map Prod.fst ?_
  rw [State.breakpointEntries, List.map_map]
  exact SortedMap.nodup_map_fst h

/-- Settles O29: an answer is a permutation of the table's entries, whose keys are all different. -/
theorem listingNamesEveryRecordOnce : Obligations.ListingNamesEveryRecordOnce := by
  intro e s l ⟨_, ⟨hwf, _⟩, _, _⟩ hl
  refine ⟨hl.nodup_iff.2 (State.nodup_breakpointEntries hwf), fun a on => ?_⟩
  rw [hl.mem_iff]
  exact State.mem_breakpointEntries_iff hwf a on

/-! ### The fault state (R200, R201, R209) -/

/-- Settles O38: outside the fault state, each of the cases of R44 and R45 answers a next state. -/
theorem onlyTheFaultStateStops : Obligations.OnlyTheFaultStateStops := by
  intro s
  refine ⟨fun r hr n => core_run_faulted hr n, fun hf => ?_⟩
  cases hm : s.mode with
  | halted => exact ⟨s, step_halted hf hm⟩
  | running =>
    cases hc : s.code[s.pc.toNat]? with
    | none => exact ⟨_, step_outOfBounds hf hm hc⟩
    | some w =>
      have hw : s.Fetches w := ⟨hm, hf, hc⟩
      cases hd : decode w with
      | error d => exact ⟨_, step_undecoded hw hd⟩
      | ok i =>
        obtain ⟨u, hx⟩ := exec_eq_next i s.beginStep.advance
        exact ⟨_, step_decoded hw hd hx⟩

/-- The start of a step marks 1024, when the tick is due, and nothing else (R43, R75). -/
theorem State.isWritten_beginStep_iff (s : State) (b : Word) :
    s.beginStep.mem.isWritten b = true ↔ (s.tickNow = true ∧ b = 1024) ∨ s.mem.isWritten b = true := by
  have hfill : ¬ FilledBySnapshot Config.tickAddr 1 b := not_filledBySnapshot_of_ne (by decide) 1 b
  rw [State.beginStep_mem]
  split_ifs with htick
  · simp only [Memory.isWritten_write, hfill, htick, false_or, true_and]
  · simp [htick]

/-- Settles O39: the fetch fails after the start of the step, which writes the tick alone. -/
theorem pcOutOfBoundsIsFatal : Obligations.PcOutOfBoundsIsFatal := by
  intro s hm hf hpc
  refine ⟨_, step_outOfBounds hf hm (List.getElem?_eq_none hpc), rfl, rfl, hm, rfl, rfl, rfl, rfl, rfl,
    fun htick => ⟨?_, ?_⟩, fun htick => ?_, fun b hb => ⟨s.read_beginStep_of_ne hb, ?_⟩⟩
  · rw [State.raiseFatal_mem, s.read_beginStep_tick, if_pos htick]
  · exact (s.isWritten_beginStep_iff 1024).2 (.inl ⟨htick, rfl⟩)
  · simp [htick]
  · rw [Bool.eq_iff_iff, State.raiseFatal_mem, s.isWritten_beginStep_iff, or_iff_right fun hor => hb hor.2]

/-- `t` holds what `s` holds in registers, code memory, the breakpoint table and RAM, and runs in the same mode. -/
structure SameStorage (s t : State) : Prop where
  regs : t.regs = s.regs
  code : t.code = s.code
  breakpoints : t.breakpoints = s.breakpoints
  mem : t.mem = s.mem
  mode : t.mode = s.mode

/-- An instruction that enters the fault state writes none of these: it is DIV by zero or a BREAK without an enabled
record. -/
theorem ExecEffect.sameStorage_of_fault {i : Instr} {s t : State} (h : ExecEffect s i t) (hs : s.fault = none)
    (ht : t.fault ≠ none) : SameStorage s t := by
  cases h with
  | divByZero | breakUnrecorded => exact ⟨rfl, rfl, rfl, rfl, rfl⟩
  | alu | register | load | store | jump | breakTaken => exact absurd hs ht

/-- Settles O41: by the cases of a step that end in the fault state. -/
theorem enteringTheFaultStateWritesNothingElse : Obligations.EnteringTheFaultStateWritesNothingElse := by
  intro s t hs hstep ht
  suffices h : s.mode = .running ∧ SameStorage s.beginStep t by
    obtain ⟨hm, hregs, hcode, htable, hmem, hmode⟩ := h
    exact ⟨hregs, hcode, htable, hmem, hmode.trans hm⟩
  obtain ⟨-, ⟨-, rfl⟩ | ⟨hm, -, rfl⟩ | ⟨w, d, ⟨hm, -, -⟩, -, rfl⟩ | ⟨w, i, u, ⟨hm, -, -⟩, -, hx, rfl⟩⟩ :=
    step_cases hstep
  · exact absurd hs ht
  · exact ⟨hm, rfl, rfl, rfl, rfl, rfl⟩
  · exact ⟨hm, by simp, by simp, by simp, by simp, by simp⟩
  · have hu : u.fault ≠ none := ht
    rw [State.endStep_eq_self fun hend => hu hend.1]
    obtain ⟨hregs, hcode, htable, hmem, hmode⟩ := (exec_effect hx).sameStorage_of_fault hs hu
    exact ⟨hm, hregs, hcode, htable, hmem, hmode⟩

/-! ### How a run stands (R232) -/

/-- Settles O55: the invariant rules out every overlap of the four, so each is told by its own field. -/
theorem runEndsExcludeEachOther : Obligations.RunEndsExcludeEachOther := by
  intro e s h
  cases hf : s.fault with
  | some r =>
    obtain ⟨hm, hat⟩ := h.running_of_fault (by simp [hf])
    simp [State.runEnd, State.stopsExecute, hf, hm, hat]
  | none =>
    cases hm : s.mode with
    | halted => simp [State.runEnd, State.stopsExecute, hf, hm, h.not_atBreakpoint_of_halted hm]
    | running => cases hat : s.atBreakpoint <;> simp [State.runEnd, State.stopsExecute, hf, hm, hat]

/-! ### A breakpoint session (R190, R223 to R227) -/

/-- The step of a BREAK at an enabled record: the stop of R190, which is no place to halt. -/
theorem stepWith_of_enabled_sentinel {e : OpcodeMap} {s : State} {saved : Word} (he : e.WellFormed)
    (hw : s.Fetches (sentinelWord e)) (h : s.breakpointAt s.pc = some ⟨saved, true⟩) :
    ∃ t, stepWith e s = .next t ∧ t.mode = .running ∧ t.fault = none ∧ t.pc = s.pc ∧ t.atBreakpoint = true ∧
      t.diags = s.diags ++ [.breakpointHit s.pc] ∧ t.code = s.code.set s.pc.toNat saved ∧
      t.breakpoints = SortedMap.put s.pc.toNat ⟨saved, false⟩ s.breakpoints := by
  have ⟨hm, hf, hc⟩ := hw
  have hpc : s.pc.toNat < s.code.length := (List.getElem?_eq_some_iff.1 hc).1
  have haddr : s.beginStep.advance.instrAddr = s.pc := s.beginStep.instrAddr_advance
  have hrecord : s.beginStep.advance.breakpointAt s.beginStep.advance.instrAddr = some ⟨saved, true⟩ := by
    rw [haddr]
    exact h
  have hd : decodeWith e (sentinelWord e) = .ok .brk := decodeInvertsEncode e .brk he trivial
  refine ⟨_, stepWith_decoded hw hd (exec_brk_of_enabled hrecord), ?_⟩
  rw [haddr, State.endStep_eq_self]
  · exact ⟨hm, hf, rfl, rfl, rfl, rfl, rfl⟩
  · simp [hpc.ne]

/-- Settles O28: `add` in its case of no record, then the stop of R190, then `remove` of the disabled record. How the
run stands at the stop follows from the invariant. -/
theorem breakpointSessionRoundTrip : Obligations.BreakpointSessionRoundTrip := by
  rintro e s w he hinv ⟨hm, hf, hc⟩ hnone
  have hadd := State.addBreakpoint_of_unknown (e := e) hc hnone
  have hainv : (s.addBreakpoint e s.pc).Inv e := (hostOperationsKeepTheInvariant e s s.pc 0 0 hinv).1
  rw [hadd] at hainv ⊢
  have hsentinel : (s.code.set s.pc.toNat (sentinelWord e))[s.pc.toNat]? = some (sentinelWord e) :=
    List.getElem?_set_self (List.getElem?_eq_some_iff.1 hc).1
  obtain ⟨t, hstep, htm, htf, htpc, hat, hdiags, hpatched, htable⟩ :=
    stepWith_of_enabled_sentinel (s := (s.setBreakpoint s.pc ⟨w, true⟩).setCode s.pc (sentinelWord e)) he
      ⟨hm, hf, hsentinel⟩ ((State.breakpointAt_of_put rfl s.pc).trans (if_pos rfl))
  obtain ⟨-, -, hsuspended, -⟩ := runEndsExcludeEachOther e t (stepKeepsTheInvariant e _ t hainv hstep)
  have hcode : t.code = s.code := hpatched.trans (set_set_of_getElem?_eq_some hc _)
  have hrecord : t.breakpointAt s.pc = some ⟨w, false⟩ := (State.breakpointAt_of_put htable s.pc).trans (if_pos rfl)
  have hremovedCode : (t.removeBreakpoint s.pc).code = s.code := by
    rw [State.removeBreakpoint_of_record hrecord]
    exact hcode
  have hremovedTable : (t.removeBreakpoint s.pc).breakpoints = s.breakpoints := by
    rw [State.removeBreakpoint_breakpoints, htable, State.setCode_pc, State.setBreakpoint_pc, SortedMap.erase_put,
      State.setCode_breakpoints, State.setBreakpoint_breakpoints, SortedMap.erase_put]
    exact SortedMap.erase_of_get_eq_none hnone
  have hfetches : t.Fetches w := ⟨htm, htf, by rwa [hcode, htpc]⟩
  exact ⟨hsentinel, t, hstep, htpc, hat, hsuspended.2 hat, hdiags, hcode, hrecord, hremovedCode, hremovedTable,
    hfetches, stepWith_fetched hfetches⟩

end Sys2Proof.Machine

/-! ## Reset and loading (spec/70_reset_and_hazards.md) -/

namespace Sys2Proof.Machine

/-! ### A file's words (R206, R242) -/

/-- Bits put above a bit string: its weight is added. -/
theorem toNat_append_eq_add {n k : Nat} (hi : BitVec n) (lo : BitVec k) :
    (hi ++ lo).toNat = lo.toNat + 2 ^ k * hi.toNat := by
  rw [BitVec.toNat_append, ← Nat.shiftLeft_add_eq_or_of_lt lo.isLt, Nat.shiftLeft_eq]
  ring

theorem toNat_wordOfBytes (b0 b1 b2 b3 : Byte) :
    (wordOfBytes b0 b1 b2 b3).toNat = b0.toNat + 2 ^ 8 * b1.toNat + 2 ^ 16 * b2.toNat + 2 ^ 24 * b3.toNat := by
  simp only [wordOfBytes, toNat_append_eq_add]
  ring

theorem wordsOfBytes_eq_none_iff (bytes : List Byte) : wordsOfBytes bytes = none ↔ bytes.length % 4 ≠ 0 := by
  induction bytes using wordsOfBytes.induct with
  | case1 => simp [wordsOfBytes]
  | case2 b0 b1 b2 b3 rest ih =>
    have hlen : (b0 :: b1 :: b2 :: b3 :: rest).length % 4 = rest.length % 4 := Nat.add_mod_right _ 4
    rw [wordsOfBytes, Option.map_eq_none_iff, ih, hlen]
  | case3 bytes hnil hfour =>
    have hshort : bytes.length % 4 ≠ 0 := by
      match bytes with
      | [] => exact absurd rfl hnil
      | [_] | [_, _] | [_, _, _] => simp
      | b0 :: b1 :: b2 :: b3 :: rest => exact absurd rfl (hfour b0 b1 b2 b3 rest)
    exact iff_of_true (wordsOfBytes.eq_3 bytes hnil hfour) hshort

section Words

variable {bytes : List Byte} {ws : List Word}

/-- The first word of a file of one word or more is its first four bytes, the others are the rest's. -/
theorem wordsOfBytes_cons_eq_some_iff (b0 b1 b2 b3 : Byte) :
    wordsOfBytes (b0 :: b1 :: b2 :: b3 :: bytes) = some ws ↔
      ∃ rest, wordsOfBytes bytes = some rest ∧ wordOfBytes b0 b1 b2 b3 :: rest = ws := by
  rw [wordsOfBytes, Option.map_eq_some_iff]

theorem length_of_wordsOfBytes (h : wordsOfBytes bytes = some ws) : bytes.length = 4 * ws.length := by
  induction bytes using wordsOfBytes.induct generalizing ws with
  | case1 => cases h; rfl
  | case2 b0 b1 b2 b3 rest ih =>
    obtain ⟨ws, hrest, rfl⟩ := (wordsOfBytes_cons_eq_some_iff b0 b1 b2 b3).1 h
    simp only [List.length_cons, ih hrest]
    omega
  | case3 bytes hnil hfour => cases (wordsOfBytes.eq_3 bytes hnil hfour).symm.trans h

theorem getElem_of_wordsOfBytes (h : wordsOfBytes bytes = some ws) {k : Nat} (hk : k < ws.length)
    (hbytes : 4 * k + 3 < bytes.length) :
    ws[k] = wordOfBytes bytes[4 * k] bytes[4 * k + 1] bytes[4 * k + 2] bytes[4 * k + 3] := by
  induction bytes using wordsOfBytes.induct generalizing ws k with
  | case1 => simp at hbytes
  | case2 b0 b1 b2 b3 rest ih =>
    obtain ⟨ws, hrest, rfl⟩ := (wordsOfBytes_cons_eq_some_iff b0 b1 b2 b3).1 h
    cases k with
    | zero => rfl
    | succ k =>
      simp only [List.length_cons] at hk hbytes
      exact ih hrest (by omega) (by omega)
  | case3 bytes hnil hfour => cases (wordsOfBytes.eq_3 bytes hnil hfour).symm.trans h

theorem InputFile.words_of_wordsOfBytes (h : wordsOfBytes bytes = some ws) :
    (InputFile.contents bytes).words = .ok ws := by
  simp only [InputFile.words, h]

end Words

theorem InputFile.Malformed.words_eq_error {file : InputFile} (h : file.Malformed) :
    file.words = .error .malformedInputFile := by
  cases h with
  | unreadable => rfl
  | length bytes hlen => simp only [InputFile.words, (wordsOfBytes_eq_none_iff bytes).2 hlen]

/-! ### Words stored from an address on (R72, R243) -/

theorem Word.eq_ofNat_iff {k : Nat} (hk : k < 2 ^ 32) (a : Word) : a = BitVec.ofNat 32 k ↔ a.toNat = k := by
  rw [← Word.toNat_eq_iff, BitVec.toNat_ofNat, Nat.mod_eq_of_lt hk]

section Load

variable (m : Memory)

/-- Every word of RAM after the load: the file's where the file reaches, the old one elsewhere. -/
theorem Memory.read_loadFrom {ws : List Word} {k : Nat} (hfit : k + ws.length ≤ 2 ^ 32) (a : Word) :
    (m.loadFrom k ws).read a = if k ≤ a.toNat then ws[a.toNat - k]?.getD (m.read a) else m.read a := by
  induction ws generalizing m k with
  | nil => simp [Memory.loadFrom]
  | cons w ws ih =>
    rw [List.length_cons] at hfit
    rw [Memory.loadFrom, ih _ (by omega), Memory.read_rawStore]
    simp only [Word.eq_ofNat_iff (show k < 2 ^ 32 by omega) a]
    obtain hlt | heq | hgt := lt_trichotomy a.toNat k
    · rw [if_neg (by omega), if_neg hlt.ne, if_neg hlt.not_ge]
    · simp [heq]
    · obtain ⟨j, hj⟩ : ∃ j, a.toNat = k + 1 + j := Nat.exists_eq_add_of_le hgt
      rw [if_pos (Nat.succ_le_of_lt hgt), if_neg hgt.ne', if_pos hgt.le, show a.toNat - k = j + 1 by omega,
        show a.toNat - (k + 1) = j by omega, List.getElem?_cons_succ]

/-- The load marks the file's addresses, and no other. -/
theorem Memory.isWritten_loadFrom {ws : List Word} {k : Nat} (hfit : k + ws.length ≤ 2 ^ 32) (a : Word) :
    (m.loadFrom k ws).isWritten a = true ↔ (k ≤ a.toNat ∧ a.toNat < k + ws.length) ∨ m.isWritten a = true := by
  induction ws generalizing m k with
  | nil => simp [Memory.loadFrom]
  | cons w ws ih =>
    rw [List.length_cons] at hfit ⊢
    rw [Memory.loadFrom, ih _ (by omega), Memory.isWritten_rawStore, Bool.or_eq_true, decide_eq_true_eq,
      Word.eq_ofNat_iff (by omega), ← or_assoc]
    exact or_congr_left (by omega)

/-- The load draws nothing from the clock: its stores are raw (R72). -/
theorem Memory.loadFrom_clock (ws : List Word) (k : Nat) :
    (m.loadFrom k ws).rtcDraws = m.rtcDraws ∧ (m.loadFrom k ws).rtcInputs = m.rtcInputs := by
  induction ws generalizing m k with
  | nil => exact ⟨rfl, rfl⟩
  | cons w ws ih => exact ih (m.rawStore (BitVec.ofNat 32 k) w) (k + 1)

end Load

theorem Memory.read_reset (a : Word) : Memory.reset.read a = 0 := rfl

theorem Memory.isWritten_reset (a : Word) : Memory.reset.isWritten a = false := rfl

/-! ### What the RAM file leaves, and the core that is built -/

theorem Memory.ofFile_of_malformed {file : InputFile} (h : file.Malformed) :
    Memory.ofFile (some file) = .fault .malformedInputFile := by
  simp only [Memory.ofFile, h.words_eq_error]

theorem Memory.ofFile_of_words {file : InputFile} {ws : List Word} (h : file.words = .ok ws)
    (hfit : ws.length ≤ addressSpace) : Memory.ofFile (some file) = .next (Memory.reset.loadFrom 0 ws) := by
  simp only [Memory.ofFile, h, if_neg hfit.not_gt]

theorem Memory.wf_ofFile {ramFile : Option InputFile} {m : Memory} (h : Memory.ofFile ramFile = .next m) : m.wf := by
  cases ramFile with
  | none => cases h; exact Memory.wf_reset
  | some file =>
    unfold Memory.ofFile at h
    cases hwords : file.words with
    | error err => simp [hwords] at h
    | ok ws =>
      simp only [hwords] at h
      split_ifs at h
      cases h
      exact Memory.wf_loadFrom ws Memory.wf_reset 0

section Construct

variable {program : InputFile} {ramFile : Option InputFile}

theorem State.construct_of_malformed (h : program.Malformed) :
    State.construct program ramFile = .fault .malformedInputFile := by
  simp only [State.construct, h.words_eq_error]

/-- There is one load error, so a RAM file that raises it does so whatever the program file (R206, R207). -/
theorem State.construct_of_malformed_ram (program : InputFile) {file : InputFile} (h : file.Malformed) :
    State.construct program (some file) = .fault .malformedInputFile := by
  simp only [State.construct, Memory.ofFile_of_malformed h]
  cases program.words with
  | error err => cases err; rfl
  | ok code => rfl

theorem State.construct_of_words {code : List Word} {m : Memory} (hcode : program.words = .ok code)
    (hmem : Memory.ofFile ramFile = .next m) :
    State.construct program ramFile = .next { State.reset with code := code, mem := m } := by
  simp only [State.construct, hcode, hmem]

/-- A core that is built is the reset state with a program and with what the RAM file leaves (R240). -/
theorem State.construct_eq_next {s : State} (h : State.construct program ramFile = .next s) :
    ∃ code m, Memory.ofFile ramFile = .next m ∧ s = { State.reset with code := code, mem := m } := by
  unfold State.construct at h
  cases hcode : program.words with
  | error err => simp [hcode] at h
  | ok code =>
    cases hmem : Memory.ofFile ramFile with
    | next m =>
      simp only [hcode, hmem, Host.Outcome.next.injEq] at h
      exact ⟨code, m, rfl, h.symm⟩
    | fault err => simp [hcode, hmem] at h
    | refused r => simp [hcode, hmem] at h

end Construct

/-- Settles O47: a length that is no multiple of 4 leaves no words, and any other leaves the words read off the bytes
by induction on the file, four bytes at a time. -/
theorem programFileLoadsLittleEndian : Obligations.ProgramFileLoadsLittleEndian := by
  refine ⟨fun _ _ => State.construct_of_malformed, fun bytes =>
    ⟨fun hlen => State.construct_of_malformed (.length bytes hlen), fun hlen => ?_⟩⟩
  obtain ⟨ws, hws⟩ : ∃ ws, wordsOfBytes bytes = some ws :=
    Option.ne_none_iff_exists'.1 fun hnone => (wordsOfBytes_eq_none_iff bytes).1 hnone hlen
  have hlength : bytes.length = 4 * ws.length := length_of_wordsOfBytes hws
  refine ⟨_, State.construct_of_words (InputFile.words_of_wordsOfBytes hws) rfl, rfl, ?_, fun k hk hk' => ?_⟩
  · exact (Nat.div_eq_of_eq_mul_right (by decide) hlength).symm
  · rw [getElem_of_wordsOfBytes hws hk hk', toNat_wordOfBytes]

/-- Settles O48: the RAM file's words are loaded from address 0 over RAM at reset. -/
theorem ramFileLoadsFromAddressZero : Obligations.RamFileLoadsFromAddressZero := by
  refine ⟨fun program _ => State.construct_of_malformed_ram program, fun bytes ws program code hws hcode hfit => ?_⟩
  have hspace : 0 + ws.length ≤ 2 ^ 32 := (Nat.zero_add _).trans_le hfit
  have hread (a : Word) : (Memory.reset.loadFrom 0 ws).read a = ws[a.toNat]?.getD 0 := by
    simpa [Memory.read_reset] using Memory.read_loadFrom Memory.reset hspace a
  obtain ⟨hdraws, hinputs⟩ := Memory.reset.loadFrom_clock ws 0
  refine ⟨_, State.construct_of_words (InputFile.words_of_wordsOfBytes hcode)
    (Memory.ofFile_of_words (InputFile.words_of_wordsOfBytes hws) hfit), rfl, fun k hk => ?_, fun a ha => ?_,
    fun a => ?_, hdraws, hinputs⟩
  · rw [hread, BitVec.toNat_ofNat, Nat.mod_eq_of_lt (hk.trans_le hfit), List.getElem?_eq_getElem hk, Option.getD_some]
  · rw [hread, List.getElem?_eq_none ha, Option.getD_none]
  · simpa [Memory.isWritten_reset] using Memory.isWritten_loadFrom Memory.reset hspace a

/-! ### The reset state (R240, R241) -/

/-- The reset state satisfies the invariant with any program and any canonical RAM put in: it has no breakpoints, and
it is running at no breakpoint. -/
theorem State.inv_reset_with (e : OpcodeMap) (code : List Word) {m : Memory} (h : m.wf) :
    ({ State.reset with code := code, mem := m } : State).Inv e :=
  State.inv_of_running h ⟨List.Pairwise.nil, fun _ hr => absurd hr List.not_mem_nil⟩ rfl rfl

/-- Settles O52: whatever a RAM file leaves is canonical. -/
theorem constructedCoresSatisfyTheInvariant : Obligations.ConstructedCoresSatisfyTheInvariant := by
  intro e program ramFile s h
  obtain ⟨code, m, hmem, rfl⟩ := State.construct_eq_next h
  exact State.inv_reset_with e code (Memory.wf_ofFile hmem)

/-- Settles O51: the reset state has no program and RAM at reset. -/
theorem resetSatisfiesTheInvariant : Obligations.ResetSatisfiesTheInvariant := fun e =>
  State.inv_reset_with e [] Memory.wf_reset

/-- Settles O46: each field as reset leaves it; registers 0 and 1 by the read contract. -/
theorem resetStateIsAsStated : Obligations.ResetStateIsAsStated :=
  ⟨rfl, rfl, rfl, rfl, rfl, State.x_zero _, State.x_one _, fun a => ⟨Memory.read_reset a, Memory.isWritten_reset a⟩⟩

/-- Settles O49: with no code the fetch at 0 fails, and the run stops in the fault state that the first step enters. -/
theorem emptyProgramFaultsAtTheFirstStep : Obligations.EmptyProgramFaultsAtTheFirstStep := by
  have hstep : step State.reset = .next (State.reset.beginStep.raiseFatal .pcOutOfBounds 0) :=
    step_outOfBounds rfl rfl rfl
  exact ⟨rfl, rfl, _, hstep, rfl, fun n => (core_run_next hstep (n + 1)).trans (core_run_faulted rfl n)⟩

end Sys2Proof.Machine

/-! ## The test vectors' words (spec/95_test_vectors.md section 2.1) -/

namespace Sys2Proof.Machine

/-- A word decodes to an instruction exactly if that is well-formed and encodes to the bits the word's format draws
(R110, R115, R118). -/
theorem decode_eq_ok_iff (w : Word) (i : Instr) :
    decode w = .ok i ↔ i.WellFormed ∧ encode i = w &&& usedBits (w.extractLsb' 0 4) := by
  refine ⟨encodeInvertsDecodeOnUsedBits w i, fun ⟨hwf, henc⟩ => ?_⟩
  have hsame : w &&& usedBits (opcodeField w) = encode i &&& usedBits (opcodeField w) := by
    rw [henc, ← opcodeField_eq, BitVec.and_assoc, BitVec.and_self]
  calc decode w = decode (encode i) := (decode_congr hsame).symm
    _ = .ok i := decodeInvertsEncode .reference i wellFormed_reference hwf

/-- Settles O34: each assigned word is, on the bits its format draws, the encoding of the instruction beside it, and
opcode 0xC is unassigned. -/
theorem vectorWordsDecode : Obligations.VectorWordsDecode := by
  unfold Obligations.VectorWordsDecode
  obtain ⟨hrefused, -⟩ := decodeRefusesExactlyTheUnassigned 0x0000000C
  simp only [decode_eq_ok_iff, hrefused]
  decide

end Sys2Proof.Machine
